-- ==== Sys2Proof/Word.lean ====
section
/-! DEFINITION. Word.lean: the fixed widths of the machine (00_scope.md R5). -/

namespace Sys2Proof

/-- A byte (`u8`): one cell of instruction memory, an opcode, one byte of an immediate. -/
abbrev Byte := BitVec 8

/-- A stack element or a register: 32 bits, read as a signed two's complement integer by `BitVec.toInt`
(the spec's `i32`; two's complement is G2 of 93_implementation_defined.md). -/
abbrev Word := BitVec 32

end Sys2Proof
end

