-- ==== Sys2Proof/Config.lean ====
section
/-! DEFINITION. Config.lean: what is fixed before a run (00_scope.md R4): the three capacities and the opcode
assignment OPMAP, and the reference configuration REF. There is no free value: every value an instruction
produces is stated by a rule. -/

namespace Sys2Proof

/-- The 14 operations, in the order of the source's table (30_encoding.md R54). -/
inductive Mnemonic where
  | nop | push | pop | load | store | jmp | jz | jnz | add | sub | mul | div | print | stop
deriving DecidableEq, Repr

/-- The opcode assignment OPMAP: the byte that selects each operation. The source gives no byte value, so this
is a parameter (30_encoding.md R54, D4). -/
structure OpMap where
  nop : Byte
  push : Byte
  pop : Byte
  load : Byte
  store : Byte
  jmp : Byte
  jz : Byte
  jnz : Byte
  add : Byte
  sub : Byte
  mul : Byte
  div : Byte
  print : Byte
  stop : Byte
deriving DecidableEq, Repr

/-- The configuration `cfg` of 00_scope.md R4. -/
structure Config where
  /-- `C_STACK`: capacity of the operand stack, in 32-bit elements. -/
  cStack : Nat
  /-- `C_REGS`: number of registers. -/
  cRegs : Nat
  /-- `C_INST`: capacity of instruction memory, in bytes. -/
  cInst : Nat
  /-- `OPMAP`: the opcode assignment. -/
  opmap : OpMap
deriving DecidableEq, Repr

/-- UNVERIFIED (unsafe): the reference assignment, the row index of the source's table; the spec's own decision D4. -/
def OpMap.reference : OpMap where
  nop := 0x00
  push := 0x01
  pop := 0x02
  load := 0x03
  store := 0x04
  jmp := 0x05
  jz := 0x06
  jnz := 0x07
  add := 0x08
  sub := 0x09
  mul := 0x0A
  div := 0x0B
  print := 0x0C
  stop := 0x0D

/-- UNVERIFIED (unsafe): the reference configuration REF of 00_scope.md R4 (D1, D2, D3, D4). -/
def Config.reference : Config where
  cStack := 256
  cRegs := 256
  cInst := 256
  opmap := OpMap.reference

end Sys2Proof
end

