-- ==== Sys2Proof/Syntax.lean ====
section
/-! DEFINITION. Syntax.lean: the instructions, one constructor per row of the opcode table (30_encoding.md R54). -/

namespace Sys2Proof

/-- An instruction with its operand VALUE (30_encoding.md R53): `imm32` fills a stack element, so it is a `Word`;
`reg8` and `target16` are unsigned numbers the rules compare with `C_REGS` and `C_INST`. -/
inductive Instr where
  /-- NOP (R70). -/
  | nop
  /-- PUSH imm32 (R71). -/
  | push (imm32 : Word)
  /-- POP (R72). -/
  | pop
  /-- LOAD reg8 (R80). -/
  | load (reg8 : Nat)
  /-- STORE reg8 (R81). -/
  | store (reg8 : Nat)
  /-- JMP target16 (R90). -/
  | jmp (target16 : Nat)
  /-- JZ target16 (R91). -/
  | jz (target16 : Nat)
  /-- JNZ target16 (R92). -/
  | jnz (target16 : Nat)
  /-- ADD (R101). -/
  | add
  /-- SUB (R102). -/
  | sub
  /-- MUL (R103). -/
  | mul
  /-- DIV (R104). -/
  | div
  /-- PRINT (R120). -/
  | print
  /-- STOP (R121). -/
  | stop
deriving DecidableEq, Repr

end Sys2Proof
end

