-- ==== Sys2Proof/WellFormed.lean ====
section
/-! DEFINITION. WellFormed.lean: which terms are instructions of the machine (the operand ranges of 30_encoding.md
R53) and which configurations are configurations of it (the constraints of 00_scope.md R4). -/

namespace Sys2Proof

/-- The operand is in its range (30_encoding.md R53): `reg8` in `0..255`, `target16` in `0..65535`; every 32-bit
pattern is an `imm32`. -/
def Instr.wf : Instr → Bool
  | .nop => true
  | .push _ => true
  | .pop => true
  | .load reg8 => decide (reg8 < 256)
  | .store reg8 => decide (reg8 < 256)
  | .jmp target16 => decide (target16 < 65536)
  | .jz target16 => decide (target16 < 65536)
  | .jnz target16 => decide (target16 < 65536)
  | .add => true
  | .sub => true
  | .mul => true
  | .div => true
  | .print => true
  | .stop => true

/-- The bytes of an opcode assignment, in the order of the source's table. -/
def OpMap.bytes (om : OpMap) : List Byte :=
  [om.nop, om.push, om.pop, om.load, om.store, om.jmp, om.jz, om.jnz, om.add, om.sub, om.mul, om.div, om.print, om.stop]

/-- OPMAP is injective (30_encoding.md R54: any injective map from the 14 mnemonics to byte values). -/
abbrev OpMap.Injective (om : OpMap) : Prop := om.bytes.Nodup

/-- The constraints of 00_scope.md R4 (D1, D2, D3) and R54 on a configuration. -/
abbrev Config.WF (cfg : Config) : Prop :=
  2 ≤ cfg.cStack ∧ 1 ≤ cfg.cRegs ∧ cfg.cRegs ≤ 256 ∧ 1 ≤ cfg.cInst ∧ cfg.cInst ≤ 65535 ∧ cfg.opmap.Injective

end Sys2Proof
end

