-- ==== Sys2Proof/Decode.lean ====
section
/-! DEFINITION. Decode.lean: from bytes to instructions and back (30_encoding.md R50 to R58). The decoder is total on
any bytes and rejects by name; the encoder is written from the same format table (R51). -/

namespace Sys2Proof

/-- The 14 operations as a list, in the order of the source's table (R54). -/
def Mnemonic.all : List Mnemonic :=
  [.nop, .push, .pop, .load, .store, .jmp, .jz, .jnz, .add, .sub, .mul, .div, .print, .stop]

/-- The byte OPMAP gives an operation (R54). -/
def OpMap.byte (om : OpMap) : Mnemonic → Byte
  | .nop => om.nop
  | .push => om.push
  | .pop => om.pop
  | .load => om.load
  | .store => om.store
  | .jmp => om.jmp
  | .jz => om.jz
  | .jnz => om.jnz
  | .add => om.add
  | .sub => om.sub
  | .mul => om.mul
  | .div => om.div
  | .print => om.print
  | .stop => om.stop

/-- The operation a byte selects, if any (R54, R55). Where two operations share a byte (no legal OPMAP), the first
row of the table answers. -/
def OpMap.lookup (om : OpMap) (b : Byte) : Option Mnemonic :=
  Mnemonic.all.find? fun m => om.byte m == b

/-- `width(m)`, the number of immediate bytes (R52). -/
def Mnemonic.width : Mnemonic → Nat
  | .push => 4
  | .load => 1
  | .store => 1
  | .jmp => 2
  | .jz => 2
  | .jnz => 2
  | .nop => 0
  | .pop => 0
  | .add => 0
  | .sub => 0
  | .mul => 0
  | .div => 0
  | .print => 0
  | .stop => 0

/-- The instruction length `1 + width(m)` (R52). -/
def Mnemonic.length (m : Mnemonic) : Nat := 1 + m.width

/-- The operation an instruction performs. -/
def Instr.mnemonic : Instr → Mnemonic
  | .nop => .nop
  | .push _ => .push
  | .pop => .pop
  | .load _ => .load
  | .store _ => .store
  | .jmp _ => .jmp
  | .jz _ => .jz
  | .jnz _ => .jnz
  | .add => .add
  | .sub => .sub
  | .mul => .mul
  | .div => .div
  | .print => .print
  | .stop => .stop

/-- Bytes in address order read as one little-endian number: the byte at the lowest address is the least
significant (20_memory.md R31, R32). -/
def littleEndian : List Byte → Nat
  | [] => 0
  | b :: bs => b.toNat + 256 * littleEndian bs

/-- The `n` low bytes of a number in address order (20_memory.md R31). -/
def toLittleEndian : Nat → Nat → List Byte
  | 0, _ => []
  | n + 1, x => BitVec.ofNat 8 x :: toLittleEndian n (x / 256)

/-- The instruction an operation and its raw immediate make (R53): `imm32` is the 32 bits themselves, read as signed
by whoever reads the stack; `reg8` and `target16` are zero-extended. UNVERIFIED (unsafe): the unsigned reading is D5. -/
def Mnemonic.assemble (m : Mnemonic) (raw : Nat) : Instr :=
  match m with
  | .nop => .nop
  | .push => .push (BitVec.ofNat 32 raw)
  | .pop => .pop
  | .load => .load raw
  | .store => .store raw
  | .jmp => .jmp raw
  | .jz => .jz raw
  | .jnz => .jnz raw
  | .add => .add
  | .sub => .sub
  | .mul => .mul
  | .div => .div
  | .print => .print
  | .stop => .stop

/-- Why bytes are no instruction. -/
inductive DecodeError where
  /-- There is no byte to read as an opcode (R57). -/
  | noOpcode
  /-- The opcode byte selects no instruction (R55). -/
  | unknownOpcode (op : Byte)
  /-- The opcode byte selects an instruction whose immediate is not all there (R58). -/
  | truncated (op : Byte)
deriving DecidableEq, Repr

/-- What the decoder makes of bytes: an instruction and the bytes after it, or a reason by name. -/
inductive Decoded where
  | instr (i : Instr) (rest : List Byte)
  | error (e : DecodeError)
deriving DecidableEq, Repr

/-- Decode the instruction at the head of `bytes`, with the checks in the order of 60_exceptions.md R138, points 1
to 3 (30_encoding.md R57, R55, R58, R53). -/
def decode (om : OpMap) : List Byte → Decoded
  | [] => .error .noOpcode
  | op :: imm =>
    match om.lookup op with
    | none => .error (.unknownOpcode op)
    | some m =>
      if imm.length < m.width then .error (.truncated op)
      else .instr (m.assemble (littleEndian (imm.take m.width))) (imm.drop m.width)

/-- The raw immediate of an instruction, as an unsigned number (R51, R53). -/
def Instr.rawOperand : Instr → Nat
  | .nop => 0
  | .push imm32 => imm32.toNat
  | .pop => 0
  | .load reg8 => reg8
  | .store reg8 => reg8
  | .jmp target16 => target16
  | .jz target16 => target16
  | .jnz target16 => target16
  | .add => 0
  | .sub => 0
  | .mul => 0
  | .div => 0
  | .print => 0
  | .stop => 0

/-- The bytes of a well-formed instruction, in address order: the opcode byte and the immediate, little-endian
(R50, R51). -/
def encode (om : OpMap) (i : Instr) : List Byte :=
  om.byte i.mnemonic :: toLittleEndian i.mnemonic.width i.rawOperand

/-- The bytes of instructions laid one after the other, with no header and no padding (R50). -/
def encodeAll (om : OpMap) : List Instr → List Byte
  | [] => []
  | i :: is => encode om i ++ encodeAll om is

/-- The five bytes, in address order, of an instruction whose bits are `w`, numbered as opcode_table.json numbers
them: bits 7..0 are the opcode byte (R51); the bits from `nbits` on are 0. -/
def tableBytes (nbits w : Nat) : List Byte := toLittleEndian 5 (w % 2 ^ nbits)

/-- The instruction the decoder reads from the opcode table's word `w`, under the reference assignment. -/
def decodeTableWord (nbits w : Nat) : Option Instr :=
  match decode OpMap.reference (tableBytes nbits w) with
  | .instr i _ => some i
  | .error _ => none

end Sys2Proof
end

