-- ==== Sys2Proof/Machine/State.lean ====
section
/-! DEFINITION. State.lean: the architectural state (10_state.md R10) and its reset value (R25). -/

namespace Sys2Proof.Machine

/-- Instruction memory (10_state.md R17) as a list of (address, byte) pairs, addresses strictly rising, no entry
equal to the byte an unlisted address reads as. -/
abbrev Memory := List Host.Cell

/-- What an unlisted address reads as: reset zeroes instruction memory, and bytes past the program are zero
(10_state.md R17, R25; 20_memory.md R36). -/
def unlistedByte : Byte := 0

/-- The three values of `run_state` (10_state.md R18). -/
inductive RunState where
  /-- The core steps (once the host has given `start`). -/
  | running
  /-- Terminal, success: STOP was executed. -/
  | halted
  /-- Terminal, failure: a fault was raised. -/
  | faulted
deriving DecidableEq, Repr

/-- The closed enumeration of fault kinds (60_exceptions.md R130, R131), with `none` for the record's code 0. -/
inductive FaultKind where
  /-- No fault. -/
  | none
  /-- A push with `sp = C_STACK` (R132). -/
  | stackOverflow
  /-- Fewer stack elements than the instruction needs (R133). -/
  | stackUnderflow
  /-- A control transfer to `target > C_INST` (R134). -/
  | invalidJumpTarget
  /-- DIV with top 0 (R135). -/
  | divisionByZero
  /-- The opcode byte selects no instruction (R136). -/
  | unknownOpcode
  /-- A fetch would read at or past `C_INST` (R139). -/
  | truncatedProgram
  /-- The program handed to the loader is longer than `C_INST` (R139, R163); no step raises it. -/
  | programTooLarge
  /-- `reg8 >= C_REGS` (R137). -/
  | invalidRegister
deriving DecidableEq, Repr

/-- The fault record (10_state.md R19). -/
structure FaultRecord where
  kind : FaultKind
  opcode : Byte
  ip : Nat
  sp : Nat
deriving DecidableEq, Repr

/-- The record while no fault has been raised: all zero (10_state.md R19, R25). -/
def FaultRecord.zero : FaultRecord := ⟨.none, 0, 0, 0⟩

/-- The machine's state: the tuple of 10_state.md R10, the bit that says whether the host has given `start`, and the
configuration of the run. Plain data. -/
structure State where
  /-- The configuration (00_scope.md R4). DESIGN CHOICE (safe): the model's own field, changed by nothing, so that
  every statement holds of every configuration (notes/assumptions/1.md). -/
  cfg : Config
  /-- The occupied slots of the operand stack, index 0 first, top last (R11, R14). -/
  stack : List Word
  /-- The register file, index 0 first (R15). -/
  registers : List Word
  /-- The instruction pointer (R16). -/
  ip : Nat
  /-- Instruction memory (R17). -/
  imem : Memory
  /-- `run_state` (R18). -/
  runState : RunState
  /-- The fault record (R19). -/
  fault : FaultRecord
  /-- The output stream, oldest value first (R20). -/
  out : List Word
  /-- Whether the host has given `start` since the last reset (R25, R164). -/
  started : Bool
deriving DecidableEq, Repr

/-- Why an outcome is a fault. NO STEP OF THE CORE ANSWERS WITH ONE: the fault entry of a step is a next state
(60_exceptions.md R140). -/
inductive Fault where
  /-- Raised by the `load` transaction when the program is longer than `C_INST`: the host is told, and no run begins
  (R163). Safe: such a launch has no further meaning. -/
  | programTooLarge
deriving DecidableEq, Repr

/-- Why an outcome is a refusal. -/
inductive Refusal where
  /-- Raised by an arm of `exec` whose instruction has no meaning yet; no arm is left so. Safe. -/
  | notModelled (mnemonic : String)
  /-- Raised by `load` given after `start`: the spec allows it only between reset and start (R21, R162), and gives it
  no effect elsewhere. Safe. -/
  | loadAfterStart
  /-- Raised by `start` given a second time without a reset: the spec allows it only before the run (R21, R166), and
  gives it no effect elsewhere. Safe. -/
  | startAfterStart
deriving DecidableEq, Repr

/-- The state right after `reset` under a configuration (10_state.md R25, 70_reset_and_hazards.md R160): everything
zero or empty, and the core not stepping before `start`. -/
def State.resetFor (cfg : Config) : State where
  cfg := cfg
  stack := []
  registers := List.replicate cfg.cRegs 0
  ip := 0
  imem := []
  runState := .running
  fault := FaultRecord.zero
  out := []
  started := false

/-- The machine right after reset, in the reference configuration REF. -/
def State.reset : State := State.resetFor Config.reference

end Sys2Proof.Machine
end

