-- ==== Sys2Proof/Machine/Ops.lean ====
section
/-! DEFINITION. Ops.lean: the named operations over instruction memory, the operand stack, the registers and the
output, the raising of a fault, and the fetch of an instruction's bytes. -/

namespace Sys2Proof.Machine

/-! ### Instruction memory -/

/-- The byte at an address (`imem[a]`, 10_state.md R17). -/
def Memory.read : Memory → Nat → Byte
  | [], _ => unlistedByte
  | (k, b) :: rest, a => if k = a then b else Memory.read rest a

/-- Write one byte, keeping the canonical form. Only the loader writes (20_memory.md R43, R44). -/
def Memory.write : Memory → Nat → Byte → Memory
  | [], a, v => if v = unlistedByte then [] else [(a, v)]
  | (k, b) :: rest, a, v =>
    if a < k then (if v = unlistedByte then (k, b) :: rest else (a, v) :: (k, b) :: rest)
    else if a = k then (if v = unlistedByte then rest else (a, v) :: rest)
    else (k, b) :: Memory.write rest a v

/-- Write bytes at consecutive addresses from `a` on. -/
def Memory.writeBytes : Memory → Nat → List Byte → Memory
  | m, _, [] => m
  | m, a, b :: bs => Memory.writeBytes (Memory.write m a b) (a + 1) bs

/-- The `n` bytes from address `a` on, in address order. -/
def Memory.readBytes (m : Memory) : Nat → Nat → List Byte
  | _, 0 => []
  | a, n + 1 => Memory.read m a :: Memory.readBytes m (a + 1) n

/-- `MemRead(addr, n)`: `n` bytes assembled little-endian (20_memory.md R32). -/
def Memory.readLE (m : Memory) (addr n : Nat) : Nat := littleEndian (Memory.readBytes m addr n)

/-- The canonical form: addresses strictly rising, and no entry equal to what an unlisted address reads as. -/
abbrev Memory.wf (m : Memory) : Prop :=
  m.Pairwise (fun p q => p.1 < q.1) ∧ ∀ p ∈ m, p.2 ≠ unlistedByte

/-- Every listed address exists: it is below `C_INST` (20_memory.md R35). -/
abbrev Memory.Below (m : Memory) (bound : Nat) : Prop := ∀ p ∈ m, p.1 < bound

/-! ### The operand stack (10_state.md R11 to R14) -/

/-- The stack pointer: the count of occupied slots (R13, R14). -/
abbrev State.sp (s : State) : Nat := s.stack.length

/-- `stack[k]`, read only where `k < sp` (R11). -/
def State.slot (s : State) (k : Nat) : Word := s.stack.getD k 0

/-- `top = stack[sp - 1]` (R12). -/
def State.top (s : State) : Word := s.slot (s.sp - 1)

/-- `second = stack[sp - 2]` (R12). -/
def State.second (s : State) : Word := s.slot (s.sp - 2)

/-- `stack[sp] <- v; sp <- sp + 1` (R11). -/
def State.pushed (s : State) (v : Word) : State := { s with stack := s.stack ++ [v] }

/-- `sp <- sp - n`: the slots above are no longer part of the state (R14). -/
def State.dropped (s : State) (n : Nat) : State := { s with stack := s.stack.take (s.sp - n) }

/-! ### Registers (10_state.md R15) -/

/-- `r[i]`. -/
def State.readReg (s : State) (i : Nat) : Word := s.registers.getD i 0

/-- `r[i] <- v`. -/
def State.writeReg (s : State) (i : Nat) (v : Word) : State := { s with registers := s.registers.set i v }

/-! ### The instruction pointer, the output, the run state -/

/-- `ip <- t` (10_state.md R16). -/
def State.setIp (s : State) (t : Nat) : State := { s with ip := t }

/-- `next = a + 1 + width(m)`: the address after the instruction `m` at `ip` (30_encoding.md R60). -/
def State.nextIp (s : State) (m : Mnemonic) : Nat := s.ip + m.length

/-- `ip <- next` (30_encoding.md R60). -/
def State.advance (s : State) (m : Mnemonic) : State := s.setIp (s.nextIp m)

/-- `emit(v)`: append to the output stream (10_state.md R20, 44_output_and_halt.md R120). -/
def State.emit (s : State) (v : Word) : State := { s with out := s.out ++ [v] }

/-- `halt`: enter run state Halted (44_output_and_halt.md R121). -/
def State.halt (s : State) : State := { s with runState := .halted }

/-! ### Fault entry (60_exceptions.md R140): there is no return from one (R142) -/

/-- Raise a fault of kind `k`, `op` being the opcode byte fetched: the run state and the record change, nothing
else does. -/
def State.raise (s : State) (k : FaultKind) (op : Byte) : State :=
  { s with runState := .faulted, fault := { kind := k, opcode := op, ip := s.ip, sp := s.sp } }

/-- The fault `k` of the instruction `m`: its opcode byte is the one OPMAP gives `m`. -/
def State.raiseIn (s : State) (k : FaultKind) (m : Mnemonic) : State := s.raise k (s.cfg.opmap.byte m)

/-! ### Preconditions (60_exceptions.md R138, points 4 to 6), each raising its fault with nothing changed -/

/-- A meaning's answer. -/
abbrev Result := Host.Outcome State Fault Refusal

/-- `if cond then raise k`, else go on. -/
def State.check (s : State) (cond : Bool) (k : FaultKind) (m : Mnemonic) (go : Result) : Result :=
  if cond then .next (s.raiseIn k m) else go

/-- `if sp >= C_STACK then raise StackOverflow` (R132). -/
def State.needRoom (s : State) (m : Mnemonic) (go : Result) : Result :=
  s.check (decide (s.cfg.cStack ≤ s.sp)) .stackOverflow m go

/-- `if sp < n then raise StackUnderflow` (R133). -/
def State.needDepth (s : State) (n : Nat) (m : Mnemonic) (go : Result) : Result :=
  s.check (decide (s.sp < n)) .stackUnderflow m go

/-! ### Fetch (30_encoding.md R57, R58; 20_memory.md R38) -/

/-- The longest instruction, in bytes (30_encoding.md R50). -/
def maxLength : Nat := 5

/-- The bytes the decoder can see: from `ip` on, none at or past `C_INST`, and no more than the longest
instruction has. -/
def State.fetchWindow (s : State) : List Byte :=
  Memory.readBytes s.imem s.ip (min maxLength (s.cfg.cInst - s.ip))

/-- The fault a decode error raises (60_exceptions.md R136, R139): the opcode byte recorded is 0 where none was
fetched. -/
def State.decodeFault (s : State) : DecodeError → State
  | .noOpcode => s.raise .truncatedProgram 0
  | .unknownOpcode op => s.raise .unknownOpcode op
  | .truncated op => s.raise .truncatedProgram op

end Sys2Proof.Machine
end

