-- ==== Sys2Proof/Machine/Operands.lean ====
section
/-! DEFINITION. Operands.lean: the operand forms. An instruction takes its immediate (assembled by the decoder,
30_encoding.md R53), a register named by `reg8`, a target named by `target16`, or elements at the top of the stack. -/

namespace Sys2Proof.Machine

/-- `reg8` names a register (41_register_transfer.md R82). UNVERIFIED (safe): the check is D2. -/
def State.regExists (s : State) (reg8 : Nat) : Bool := decide (reg8 < s.cfg.cRegs)

/-- `if reg8 >= C_REGS then raise InvalidRegister` (R82, R137). -/
def State.needReg (s : State) (reg8 : Nat) (m : Mnemonic) (go : Result) : Result :=
  s.check (!s.regExists reg8) .invalidRegister m go

/-- A target is valid if and only if `target <= C_INST` (42_control_transfer.md R93). -/
def State.targetValid (s : State) (target16 : Nat) : Bool := decide (target16 ≤ s.cfg.cInst)

/-- One stack operand: give the top to `go`, after the depth check (R133). -/
def State.withTop (s : State) (m : Mnemonic) (go : Word → Result) : Result :=
  s.needDepth 1 m (go s.top)

/-- Two stack operands, both read before anything changes (43_arithmetic.md R100): give second and top to `go`. -/
def State.withTopTwo (s : State) (m : Mnemonic) (go : Word → Word → Result) : Result :=
  s.needDepth 2 m (go s.second s.top)

end Sys2Proof.Machine
end

