-- ==== Sys2Proof/Machine/Flags.lean ====
section
/-! DEFINITION. Flags.lean: the machine has no flags and no condition codes (10_state.md R22), and arithmetic overflow
sets nothing (43_arithmetic.md R105). What stands here is the one condition an instruction tests, on a value it pops. -/

namespace Sys2Proof.Machine

/-- The condition of JZ: the popped value is exactly 0 (42_control_transfer.md R91). -/
def condZero (v : Word) : Bool := decide (v.toInt = 0)

/-- The condition of JNZ, the exact complement (R92). -/
def condNonZero (v : Word) : Bool := !condZero v

end Sys2Proof.Machine
end

