-- ==== Sys2Proof/Machine/Arithmetic.lean ====
section
/-! DEFINITION. Arithmetic.lean: ADD, SUB, MUL, DIV (43_arithmetic.md). -/

namespace Sys2Proof.Machine

/-- `wrap32(z)`: the signed 32-bit value congruent to `z` modulo 2^32 (00_scope.md section 4). -/
def wrap32 (z : Int) : Word := BitVec.ofInt 32 z

/-- `tdiv(b, a)`: the quotient rounded toward zero, `sign(b) * sign(a) * floor(|b| / |a|)` (00_scope.md section 4). -/
def tdiv (b a : Int) : Int := b.sign * a.sign * ((b.natAbs / a.natAbs : Nat) : Int)

/-- The common end of the four (R100): two pops, one push of `wrap32` of the exact result. UNVERIFIED (unsafe): that
an exact result outside the range wraps is D6 and D7 (R105, R106). -/
def State.arithResult (s : State) (m : Mnemonic) (exact : Int) : State :=
  ((s.dropped 2).pushed (wrap32 exact)).advance m

/-- ADD (R101). -/
def execAdd (s : State) : Result :=
  s.withTopTwo .add fun y x => .next (s.arithResult .add (y.toInt + x.toInt))

/-- SUB (R102): second minus top. -/
def execSub (s : State) : Result :=
  s.withTopTwo .sub fun y x => .next (s.arithResult .sub (y.toInt - x.toInt))

/-- MUL (R103): the product is taken over the integers before wrapping. -/
def execMul (s : State) : Result :=
  s.withTopTwo .mul fun y x => .next (s.arithResult .mul (y.toInt * x.toInt))

/-- DIV (R104, R106): second divided by top; the depth check first, then the divisor. -/
def execDiv (s : State) : Result :=
  s.withTopTwo .div fun y x =>
    s.check (decide (x.toInt = 0)) .divisionByZero .div (.next (s.arithResult .div (tdiv y.toInt x.toInt)))

end Sys2Proof.Machine
end

