-- ==== Sys2Proof/Machine/ControlTransfer.lean ====
section
/-! DEFINITION. ControlTransfer.lean: JMP, JZ, JNZ (42_control_transfer.md). -/

namespace Sys2Proof.Machine

/-- JMP (R90). -/
def execJmp (target16 : Nat) (s : State) : Result :=
  s.check (!s.targetValid target16) .invalidJumpTarget .jmp (.next (s.setIp target16))

/-- Pop, then jump if `taken` of the popped value. The target is checked when, and only when, the jump is taken, and
before the pop (R91, R92, R93). UNVERIFIED (unsafe): when the target is checked is D8. -/
def State.branch (s : State) (m : Mnemonic) (taken : Word → Bool) (target16 : Nat) : Result :=
  s.withTop m fun v =>
    if taken v then
      s.check (!s.targetValid target16) .invalidJumpTarget m (.next ((s.dropped 1).setIp target16))
    else .next ((s.dropped 1).advance m)

/-- JZ (R91). -/
def execJz (target16 : Nat) (s : State) : Result := s.branch .jz condZero target16

/-- JNZ (R92). -/
def execJnz (target16 : Nat) (s : State) : Result := s.branch .jnz condNonZero target16

end Sys2Proof.Machine
end

