-- ==== Sys2Proof/Machine/OutputHalt.lean ====
section
/-! DEFINITION. OutputHalt.lean: PRINT, STOP (44_output_and_halt.md), and the text the sink shows (10_state.md R20). -/

namespace Sys2Proof.Machine

/-- PRINT (R120): one value appended to the output stream, the one popped. -/
def execPrint (s : State) : Result :=
  s.withTop .print fun v => .next (((s.emit v).dropped 1).advance .print)

/-- STOP (R121). -/
def execStop (s : State) : Result := .next ((s.advance .stop).halt)

/-- The decimal digits of a number below `10 ^ fuel`, as ASCII bytes, most significant first (10_state.md R20). -/
def decimalDigits : Nat → Nat → List Byte
  | 0, _ => []
  | fuel + 1, n =>
    if n < 10 then [BitVec.ofNat 8 (48 + n)]
    else decimalDigits fuel (n / 10) ++ [BitVec.ofNat 8 (48 + n % 10)]

/-- `render(v)` (10_state.md R20): a minus sign if negative, the digits of the magnitude, one line feed. UNVERIFIED
(unsafe): the sign, the leading zeros and the newline byte are D15. -/
def renderWord (v : Word) : List Byte :=
  (if v.toInt < 0 then [0x2D] else []) ++ decimalDigits 10 v.toInt.natAbs ++ [0x0A]

/-- The rendered text of a run: `render` over `out`, in order (10_state.md R20). -/
def renderOut : List Word → List Byte
  | [] => []
  | v :: vs => renderWord v ++ renderOut vs

end Sys2Proof.Machine
end

