-- ==== Sys2Proof/Machine/RegisterTransfer.lean ====
section
/-! DEFINITION. RegisterTransfer.lean: LOAD, STORE (41_register_transfer.md). -/

namespace Sys2Proof.Machine

/-- LOAD (R80): push a register. -/
def execLoad (reg8 : Nat) (s : State) : Result :=
  s.needReg reg8 .load (s.needRoom .load (.next ((s.pushed (s.readReg reg8)).advance .load)))

/-- STORE (R81): pop the true top into a register. -/
def execStore (reg8 : Nat) (s : State) : Result :=
  s.needReg reg8 .store (s.withTop .store fun v => .next (((s.dropped 1).writeReg reg8 v).advance .store))

end Sys2Proof.Machine
end

