-- ==== Sys2Proof/Machine/StackOps.lean ====
section
/-! DEFINITION. StackOps.lean: NOP, PUSH, POP (40_stack_ops.md). -/

namespace Sys2Proof.Machine

/-- NOP (R70). -/
def execNop (s : State) : Result := .next (s.advance .nop)

/-- PUSH (R71). -/
def execPush (imm32 : Word) (s : State) : Result :=
  s.needRoom .push (.next ((s.pushed imm32).advance .push))

/-- POP (R72). -/
def execPop (s : State) : Result :=
  s.withTop .pop fun _ => .next ((s.dropped 1).advance .pop)

end Sys2Proof.Machine
end

