-- ==== Sys2Proof/Machine/Dispatch.lean ====
section
/-! DEFINITION. Dispatch.lean: one arm per constructor of Instr, each a direct call of its meaning. -/

namespace Sys2Proof.Machine

def exec (i : Instr) (s : State) : Host.Outcome State Fault Refusal :=
  match i with
  | .nop => Sys2Proof.Machine.execNop s
  | .push imm32 => Sys2Proof.Machine.execPush imm32 s
  | .pop => Sys2Proof.Machine.execPop s
  | .load reg8 => Sys2Proof.Machine.execLoad reg8 s
  | .store reg8 => Sys2Proof.Machine.execStore reg8 s
  | .jmp target16 => Sys2Proof.Machine.execJmp target16 s
  | .jz target16 => Sys2Proof.Machine.execJz target16 s
  | .jnz target16 => Sys2Proof.Machine.execJnz target16 s
  | .add => Sys2Proof.Machine.execAdd s
  | .sub => Sys2Proof.Machine.execSub s
  | .mul => Sys2Proof.Machine.execMul s
  | .div => Sys2Proof.Machine.execDiv s
  | .print => Sys2Proof.Machine.execPrint s
  | .stop => Sys2Proof.Machine.execStop s

end Sys2Proof.Machine
end

