-- ==== Sys2Proof/Machine/Step.lean ====
section
/-! DEFINITION. Step.lean: one step of the core (30_encoding.md R60), and the placing of a word where it is fetched. -/

namespace Sys2Proof.Machine

/-- The core steps only in Running, and only once the host has given `start` (10_state.md R18, R25;
70_reset_and_hazards.md R164). -/
abbrev State.Executing (s : State) : Prop := s.started = true ∧ s.runState = .running

/-- One step. While executing: fetch, decode, perform. Otherwise the core performs no step and nothing changes
(10_state.md R18; 60_exceptions.md R151). -/
def step (s : State) : Host.Outcome State Fault Refusal :=
  if s.Executing then
    match decode s.cfg.opmap s.fetchWindow with
    | .instr i _ => exec i s
    | .error e => .next (s.decodeFault e)
  else .next s

/-- `s` about to run the instruction whose bits are `w` (numbered as opcode_table.json numbers them): its five bytes
stand at `ip` (at 0 where they do not fit below `C_INST`) and the core is executing, with no fault recorded. This
stands for the host's `load` and `start` (notes/assumptions/17.md). -/
def State.withFetchWord (s : State) (nbits w : Nat) : State :=
  let a := if s.ip + maxLength ≤ s.cfg.cInst then s.ip else 0
  { s with
    ip := a
    imem := Memory.writeBytes s.imem a ((tableBytes nbits w).take (s.cfg.cInst - a))
    runState := .running
    fault := FaultRecord.zero
    started := true }

end Sys2Proof.Machine
end

