-- ==== Sys2Proof/Machine/HostInterface.lean ====
section
/-! DEFINITION. HostInterface.lean: the transactions the host and the loader give the core (10_state.md R21;
70_reset_and_hazards.md R160 to R166), what `status` shows (R21, R23), and the numbers it shows (R18, R131). -/

namespace Sys2Proof.Machine

/-- `reset`: any time; the one way out of Halted and Faulted (R160, R161). -/
def hostReset (s : State) : State := State.resetFor s.cfg

/-- `load(p)`: the loader fills instruction memory from address 0, before `start` (R162). A program longer than
`C_INST` is answered with ProgramTooLarge: the core stays in the state it was given, and the host must not give `start`
(R163). It validates nothing. -/
def load (p : List Byte) (s : State) : Result :=
  if s.started then .refused .loadAfterStart
  else if s.cfg.cInst < p.length then .fault .programTooLarge
  else .next { s with imem := Memory.writeBytes s.imem 0 p }

/-- `start`: the core begins stepping from where `reset` left `ip` (R164). -/
def start (s : State) : Result :=
  if s.started then .refused .startAfterStart else .next { s with started := true }

/-- `init(cfg, p)`: the state in which a run of program `p` begins (R165), for `p` no longer than `C_INST`. -/
def State.init (cfg : Config) (p : List Byte) : State :=
  { State.resetFor cfg with imem := Memory.writeBytes [] 0 p, started := true }

/-- What `status` shows the host, read-only: the control and status state of the core (R23), which is the run state
(R18), the fault record when Faulted (R19, R21), and `ip` and `sp` in every run state. DEDUCED (safe): that `ip` and
`sp` are shown is R23 and 44_output_and_halt.md R121; R21's row of `status` does not list them
(notes/assumptions/24.md). -/
structure Status where
  runState : RunState
  ip : Nat
  sp : Nat
  fault : Option FaultRecord
deriving DecidableEq, Repr

/-- `status`: any time (R21). It reads the state and changes none of it (R23). -/
def hostStatus (s : State) : Status where
  runState := s.runState
  ip := s.ip
  sp := s.sp
  fault := if s.runState = .faulted then some s.fault else none

/-- The run state on a status port (R18). UNVERIFIED (safe): the numbers are D14, presentation only. -/
def RunState.code : RunState → Nat
  | .running => 0
  | .halted => 1
  | .faulted => 2

/-- The number of a fault kind (60_exceptions.md R131). UNVERIFIED (safe): the numbers are D9, presentation only. -/
def FaultKind.code : FaultKind → Nat
  | .none => 0
  | .stackOverflow => 1
  | .stackUnderflow => 2
  | .invalidJumpTarget => 3
  | .divisionByZero => 4
  | .unknownOpcode => 5
  | .truncatedProgram => 6
  | .programTooLarge => 7
  | .invalidRegister => 8

/-- The kind the host is told by a refused `load` (R163). -/
def Fault.kind : Fault → FaultKind
  | .programTooLarge => .programTooLarge

end Sys2Proof.Machine
end

