-- ==== Sys2Proof/Safety.lean ====
section
/-! DEFINITION. Safety.lean: the words claims use: the invariant, terminal states, runs, the end of a run, what the
outside can see of a run, and how an outcome is a fault entry. -/

namespace Sys2Proof.Machine

/-- The invariant of a machine state: 10_state.md R26, the register count (R15), the canonical form of memory, the
constraints on the configuration (R4, R54), the record being zero while not Faulted (R19), and in Faulted the record
holding `ip` and `sp` (60_exceptions.md R140). -/
abbrev State.Inv (s : State) : Prop :=
  s.cfg.WF ∧ s.sp ≤ s.cfg.cStack ∧ s.registers.length = s.cfg.cRegs ∧ s.ip ≤ s.cfg.cInst ∧
    Memory.wf s.imem ∧ Memory.Below s.imem s.cfg.cInst ∧
    (s.runState ≠ .faulted → s.fault = FaultRecord.zero) ∧
    (s.runState = .faulted → s.fault.kind ≠ .none ∧ s.fault.ip = s.ip ∧ s.fault.sp = s.sp)

/-- Halted or Faulted (10_state.md R18). -/
abbrev State.Terminal (s : State) : Prop := s.runState ≠ .running

/-- `n` steps. -/
def run : Nat → State → Result
  | 0, s => .next s
  | n + 1, s =>
    match step s with
    | .next t => run n t
    | .fault r => .fault r
    | .refused r => .refused r

/-- The run from `s` ends in `t` (70_reset_and_hazards.md R168). -/
def EndsIn (s t : State) : Prop := ∃ n, run n s = .next t ∧ t.Terminal

/-- Every value the run from `s` ever emits stands in the output of some state of the run from `s'`, in place. -/
def OutWithin (s s' : State) : Prop :=
  ∀ n t, run n s = .next t → ∃ n' t', run n' s' = .next t' ∧ t.out <+: t'.out

/-- The part of the host's status that the equivalence of runs compares: the run state, and the fault record if Faulted
(70_reset_and_hazards.md R170). `ip` and `sp`, which `status` shows too (10_state.md R23), are no part of it. -/
def Status.ending (st : Status) : RunState × Option FaultRecord := (st.runState, st.fault)

/-- Two runs are observably equal (70_reset_and_hazards.md R170): they end in the same run state, with the same fault
record if Faulted, or neither ends, and they emit the same values. -/
def ObservablyEqual (s s' : State) : Prop :=
  (∀ e, (∃ t, EndsIn s t ∧ (hostStatus t).ending = e) ↔ ∃ t, EndsIn s' t ∧ (hostStatus t).ending = e) ∧
    OutWithin s s' ∧ OutWithin s' s

/-- The outcome `o` is the entry of fault `k` of instruction `m` from `s` (60_exceptions.md R140): Faulted, the record
filled, everything else as it was. -/
def Faults (s : State) (k : FaultKind) (m : Mnemonic) (o : Result) : Prop :=
  o = .next { s with
    runState := .faulted
    fault := { kind := k, opcode := s.cfg.opmap.byte m, ip := s.ip, sp := s.stack.length } }

/-- The fault a fully fetched instruction meets first, in the order of 60_exceptions.md R138, points 4 to 6: the
register index, the stack, the value. Written from R138 and the table of R130, not from the meanings. -/
def execFault (i : Instr) (s : State) : FaultKind :=
  match i with
  | .nop => .none
  | .push _ => if s.cfg.cStack ≤ s.sp then .stackOverflow else .none
  | .pop => if s.sp < 1 then .stackUnderflow else .none
  | .load reg8 =>
    if s.cfg.cRegs ≤ reg8 then .invalidRegister else if s.cfg.cStack ≤ s.sp then .stackOverflow else .none
  | .store reg8 => if s.cfg.cRegs ≤ reg8 then .invalidRegister else if s.sp < 1 then .stackUnderflow else .none
  | .jmp target16 => if s.cfg.cInst < target16 then .invalidJumpTarget else .none
  | .jz target16 =>
    if s.sp < 1 then .stackUnderflow
    else if s.top = 0 ∧ s.cfg.cInst < target16 then .invalidJumpTarget else .none
  | .jnz target16 =>
    if s.sp < 1 then .stackUnderflow
    else if s.top ≠ 0 ∧ s.cfg.cInst < target16 then .invalidJumpTarget else .none
  | .add => if s.sp < 2 then .stackUnderflow else .none
  | .sub => if s.sp < 2 then .stackUnderflow else .none
  | .mul => if s.sp < 2 then .stackUnderflow else .none
  | .div => if s.sp < 2 then .stackUnderflow else if s.top = 0 then .divisionByZero else .none
  | .print => if s.sp < 1 then .stackUnderflow else .none
  | .stop => .none

/-- The fault a step meets first, in the order of 60_exceptions.md R138, or `none`: the opcode fetch, the opcode, the
immediate fetch, then the instruction's own checks. -/
def firstFault (s : State) : FaultKind :=
  if s.cfg.cInst ≤ s.ip then .truncatedProgram
  else
    match s.cfg.opmap.lookup (s.imem.read s.ip) with
    | none => .unknownOpcode
    | some m =>
      if s.cfg.cInst < s.ip + m.length then .truncatedProgram
      else execFault (m.assemble (s.imem.readLE (s.ip + 1) m.width)) s

end Sys2Proof.Machine
end

