-- ==== Sys2Proof/Certificates/Slice0/Obligations.lean ====
section
/-! DEFINITION. Obligations.lean: the statements for the provers. A docstring cites the rule of spec/ a statement
formalises; where a clause rests on a decision the spec marks as its own (D<n> of 92_eei_decisions.md), it says so.
Wherever a statement says `Faults` (Safety.lean), the layout of the record and that `ip` stays at the faulting
instruction are D11 (notes/assumptions/12.md), and that the stack is the list of its occupied slots is D16
(notes/assumptions/7.md). -/

open Sys2Proof Sys2Proof.Machine

/-! ### Encoding and decoding -/

/-- Words written out from R51, R53, R63 decode to the instructions they stand for, under the reference assignment,
which is the spec's own choice (D4; notes/assumptions/3.md). That the words 0xFF04 and 0xFFFF07 name register 255 and
target 65535 rests on the unsigned reading of reg8 and target16, the spec's own decision too (D5;
notes/assumptions/8.md). -/
def Obligations.DecodesSpecWords : Prop :=
  decodeTableWord 8 0x00 = some .nop ∧
  decodeTableWord 40 0x1234567801 = some (.push 0x12345678) ∧
  decodeTableWord 40 0x8000000001 = some (.push 0x80000000) ∧
  decodeTableWord 16 0x0703 = some (.load 7) ∧
  decodeTableWord 16 0xFF04 = some (.store 255) ∧
  decodeTableWord 24 0x010206 = some (.jz 258) ∧
  decodeTableWord 24 0xFFFF07 = some (.jnz 65535) ∧
  decodeTableWord 8 0x0B = some .div ∧
  decodeTableWord 8 0x0C = some .print ∧
  decodeTableWord 8 0x0D = some .stop ∧
  decodeTableWord 8 0x0E = none

/-- DECODE AND ENCODE AGREE: whatever bytes follow, the bytes of a well-formed instruction decode to it, with every
operand at every value, under every injective opcode assignment (R50 to R54; the unsigned
reading of reg8 and target16 is D5, the spec's own decision). -/
def Obligations.DecodeEncode : Prop :=
  ∀ (om : OpMap) (i : Instr) (rest : List Byte), om.Injective → i.wf = true →
    decode om (encode om i ++ rest) = .instr i rest

/-- ENCODE AND DECODE AGREE: bytes that decode to an instruction ARE that instruction's bytes followed by the rest, and
the instruction is well-formed. No bit of the bytes read is dropped (R50 to R54; D5 as above). -/
def Obligations.EncodeDecode : Prop :=
  ∀ (om : OpMap) (bs rest : List Byte) (i : Instr), decode om bs = .instr i rest →
    i.wf = true ∧ bs = encode om i ++ rest

/-- R52: the width of each operation's immediate, the length of an instruction, and that the decoder takes exactly
that many bytes. -/
def Obligations.InstructionLengths : Prop :=
  (Mnemonic.push.width = 4 ∧ Mnemonic.load.width = 1 ∧ Mnemonic.store.width = 1 ∧ Mnemonic.jmp.width = 2 ∧
    Mnemonic.jz.width = 2 ∧ Mnemonic.jnz.width = 2 ∧ Mnemonic.nop.width = 0 ∧ Mnemonic.pop.width = 0 ∧
    Mnemonic.add.width = 0 ∧ Mnemonic.sub.width = 0 ∧ Mnemonic.mul.width = 0 ∧ Mnemonic.div.width = 0 ∧
    Mnemonic.print.width = 0 ∧ Mnemonic.stop.width = 0) ∧
  (∀ (om : OpMap) (i : Instr), (encode om i).length = 1 + i.mnemonic.width) ∧
  (∀ (om : OpMap) (bs rest : List Byte) (i : Instr), decode om bs = .instr i rest →
    bs.length = 1 + i.mnemonic.width + rest.length)

/-- R32: MemRead is the little-endian sum of the bytes; of four bytes it is their concatenation, the byte at the
highest address most significant. -/
def Obligations.MemReadLittleEndian : Prop :=
  ∀ (m : Memory) (addr : Nat),
    (∀ n, m.readLE addr n = ((List.range n).map fun k => (m.read (addr + k)).toNat * 256 ^ k).sum) ∧
    BitVec.ofNat 32 (m.readLE addr 4) =
      m.read (addr + 3) ++ m.read (addr + 2) ++ m.read (addr + 1) ++ m.read addr

/-! ### The step -/

/-- A STEP RUNS THE DECODED INSTRUCTION (R60): while the core executes, if the bytes from `ip` on decode to `i`, the
step is `exec i`; the meaning itself moves `ip`, nothing else is added. -/
def Obligations.StepRunsDecoded : Prop :=
  ∀ (s : State) (i : Instr) (rest : List Byte), s.Executing → decode s.cfg.opmap s.fetchWindow = .instr i rest →
    step s = exec i s

/-- R60 from the bytes in memory: if a well-formed instruction's bytes stand at `ip`, below `C_INST`, the step is
`exec` of it. -/
def Obligations.StepRunsEncoded : Prop :=
  ∀ (s : State) (i : Instr), s.Executing → s.cfg.opmap.Injective → i.wf = true →
    s.ip + (encode s.cfg.opmap i).length ≤ s.cfg.cInst →
    s.imem.readBytes s.ip (encode s.cfg.opmap i).length = encode s.cfg.opmap i → step s = exec i s

/-- R57 (the bound on the opcode fetch is D13, the record's layout D11, both the spec's own decisions): a fetch at or
past `C_INST` raises TruncatedProgram with opcode 0; everything else is as it was. -/
def Obligations.TruncatedOpcodeFetch : Prop :=
  ∀ s : State, s.Executing → s.cfg.cInst ≤ s.ip →
    step s = .next { s with
      runState := .faulted
      fault := { kind := .truncatedProgram, opcode := 0, ip := s.ip, sp := s.stack.length } }

/-- R58: an immediate that would extend past `C_INST` raises TruncatedProgram with the opcode byte, whatever the stack
holds (R138). The spec's own decisions in it: the bound is D13 (notes/assumptions/13.md), the record's layout and `ip`
are D11 (notes/assumptions/12.md), and that the whole instruction is fetched before any precondition of its handler is
checked is D10 (notes/assumptions/11.md). -/
def Obligations.TruncatedImmediateFetch : Prop :=
  ∀ (s : State) (m : Mnemonic), s.Executing → s.cfg.opmap.Injective → s.ip < s.cfg.cInst →
    s.imem.read s.ip = s.cfg.opmap.byte m → s.cfg.cInst < s.ip + 1 + m.width →
    step s = .next { s with
      runState := .faulted
      fault := { kind := .truncatedProgram, opcode := s.imem.read s.ip, ip := s.ip, sp := s.stack.length } }

/-- R136: a byte at `ip` that is assigned to no instruction raises UnknownOpcode, and the record holds the byte and its
offset (that `ip` and all else stay as they were is D11, the spec's own decision). -/
def Obligations.UnknownOpcodeStep : Prop :=
  ∀ s : State, s.Executing → s.ip < s.cfg.cInst → (∀ m, s.cfg.opmap.byte m ≠ s.imem.read s.ip) →
    step s = .next { s with
      runState := .faulted
      fault := { kind := .unknownOpcode, opcode := s.imem.read s.ip, ip := s.ip, sp := s.stack.length } }

/-- R138 (the order is D10, and the checks of D2, D8, D13 are in it: the spec's own decisions): a step raises the first
fault of the fixed order of checks, and faults only if there is one. -/
def Obligations.StepRaisesTheFirstFault : Prop :=
  ∀ s t : State, s.Executing → s.fault.kind = .none → step s = .next t →
    t.fault.kind = firstFault s ∧ (t.runState = .faulted ↔ firstFault s ≠ .none)

/-- R140, R141 (the record's layout and `ip` are D11, the spec's own decision): a step that faults changes the run state
and the record and nothing else; the record names a kind a step can raise (never ProgramTooLarge, R139), the opcode byte
fetched (0 if none), and `ip` and `sp` as they were. -/
def Obligations.FaultEntryIsPrecise : Prop :=
  ∀ s t : State, s.Executing → step s = .next t → t.runState = .faulted →
    t = { s with runState := .faulted, fault := t.fault } ∧
    t.fault.kind ≠ .none ∧ t.fault.kind ≠ .programTooLarge ∧
    t.fault.opcode = (if s.cfg.cInst ≤ s.ip then 0 else s.imem.read s.ip) ∧
    t.fault.ip = s.ip ∧ t.fault.sp = s.stack.length

/-- Every step answers a next state, in every state whatever: no run stops for want of a meaning. The spec speaks of
steps in Running after `start` only (R60); the rest is the model's reading or choice. That a step in Halted or Faulted,
where the core performs none (R18), answers the same state is DEDUCED (notes/assumptions/5.md), as it is before `start`
(R164; notes/assumptions/4.md); that a fault entry is a next state is DEDUCED from R140 (notes/assumptions/6.md); and
that states no run reaches still step is a DESIGN CHOICE (notes/assumptions/19.md). -/
def Obligations.EveryStepAnswers : Prop :=
  (∀ s : State, ∃ t, step s = .next t) ∧ ∀ (i : Instr) (s : State), ∃ t, exec i s = .next t

/-- R168: Halted is reached only by executing STOP. -/
def Obligations.OnlyStopHalts : Prop :=
  ∀ s t : State, s.Executing → step s = .next t → t.runState = .halted →
    (∃ rest, decode s.cfg.opmap s.fetchWindow = .instr .stop rest) ∧
      t = { s with ip := s.ip + 1, runState := .halted }

/-- No number of steps leaves Halted or Faulted or changes anything there (R18, R142; that a step in them answers the
same state is DEDUCED, notes/assumptions/5.md), and the host's `reset` leads from any state back to Running and discards
the fault record with everything else (R142, R160; that reset may be given in Halted and Faulted is D17, the spec's own
decision, notes/assumptions/14.md). -/
def Obligations.TerminalIsFinal : Prop :=
  (∀ (s : State) (n : Nat), s.Terminal → run n s = .next s) ∧
    ∀ s : State, (hostReset s).runState = .running ∧ (hostReset s).fault = FaultRecord.zero ∧
      hostReset s = State.resetFor s.cfg

/-- R164 (`start` is the spec's own transaction, D14): the core does not step before `start`. -/
def Obligations.NoStepBeforeStart : Prop :=
  ∀ (s : State) (n : Nat), s.started = false → run n s = .next s

/-! ### The instructions -/

/-- R70: NOP advances `ip` past the opcode only; nothing else changes, whatever the stack holds. -/
def Obligations.NopEffect : Prop :=
  ∀ s : State, exec .nop s = .next { s with ip := s.ip + 1 }

/-- R71: PUSH with room pushes imm32 and moves `ip` by 5; with a full stack it raises StackOverflow and nothing else
changes (the record: D11, the spec's own decision). -/
def Obligations.PushEffect : Prop :=
  ∀ (s : State) (v : Word),
    (s.stack.length < s.cfg.cStack →
      exec (.push v) s = .next { s with stack := s.stack ++ [v], ip := s.ip + 5 }) ∧
    (s.cfg.cStack ≤ s.stack.length → Faults s .stackOverflow .push (exec (.push v) s))

/-- R72: POP discards the top and moves `ip` by 1; on an empty stack it raises StackUnderflow (the record: D11). -/
def Obligations.PopEffect : Prop :=
  ∀ s : State,
    (∀ below v, s.stack = below ++ [v] → exec .pop s = .next { s with stack := below, ip := s.ip + 1 }) ∧
    (s.stack = [] → Faults s .stackUnderflow .pop (exec .pop s))

/-- R80: LOAD of a register that exists pushes a copy of it and moves `ip` by 2; with a full stack it raises
StackOverflow (the record: D11). -/
def Obligations.LoadEffect : Prop :=
  ∀ (s : State) (r : Nat), r < s.cfg.cRegs →
    (s.stack.length < s.cfg.cStack →
      exec (.load r) s = .next { s with stack := s.stack ++ [s.registers.getD r 0], ip := s.ip + 2 }) ∧
    (s.cfg.cStack ≤ s.stack.length → Faults s .stackOverflow .load (exec (.load r) s))

/-- R81: STORE to a register that exists moves the true top into it, pops, and moves `ip` by 2; the register reads the
value, every other register reads as before; on an empty stack it raises StackUnderflow (the record:
D11). -/
def Obligations.StoreEffect : Prop :=
  ∀ (s : State) (r : Nat), r < s.cfg.cRegs → s.registers.length = s.cfg.cRegs →
    (∀ below v, s.stack = below ++ [v] →
      ∃ t, exec (.store r) s = .next t ∧
        t = { s with stack := below, registers := t.registers, ip := s.ip + 2 } ∧
        t.registers.length = s.registers.length ∧ t.readReg r = v ∧
        ∀ q, q ≠ r → t.readReg q = s.readReg q) ∧
    (s.stack = [] → Faults s .stackUnderflow .store (exec (.store r) s))

/-- R82, R137 (the check is D2 and the record D11, the spec's own decisions): LOAD and STORE of a register that does not exist raise
InvalidRegister, whatever the stack holds. -/
def Obligations.InvalidRegisterFault : Prop :=
  ∀ (s : State) (r : Nat), s.cfg.cRegs ≤ r →
    Faults s .invalidRegister .load (exec (.load r) s) ∧ Faults s .invalidRegister .store (exec (.store r) s)

/-- R90: JMP to a valid target sets `ip` and nothing else; `C_INST` itself is valid; past it InvalidJumpTarget
(the record: D11). -/
def Obligations.JmpEffect : Prop :=
  ∀ (s : State) (a : Nat),
    (a ≤ s.cfg.cInst → exec (.jmp a) s = .next { s with ip := a }) ∧
    (s.cfg.cInst < a → Faults s .invalidJumpTarget .jmp (exec (.jmp a) s))

/-- R91 (when the target is checked is D8 and the record D11, the spec's own decisions): JZ pops in both cases, jumps exactly on 0, checks
the target only when it jumps, and pops nothing when it faults. -/
def Obligations.JzEffect : Prop :=
  ∀ (s : State) (a : Nat),
    (∀ below v, s.stack = below ++ [v] →
      (v = 0 → a ≤ s.cfg.cInst → exec (.jz a) s = .next { s with stack := below, ip := a }) ∧
      (v ≠ 0 → exec (.jz a) s = .next { s with stack := below, ip := s.ip + 3 }) ∧
      (v = 0 → s.cfg.cInst < a → Faults s .invalidJumpTarget .jz (exec (.jz a) s))) ∧
    (s.stack = [] → Faults s .stackUnderflow .jz (exec (.jz a) s))

/-- R92 (D8 and D11, as for JZ): JNZ jumps exactly on a value other than 0. -/
def Obligations.JnzEffect : Prop :=
  ∀ (s : State) (a : Nat),
    (∀ below v, s.stack = below ++ [v] →
      (v ≠ 0 → a ≤ s.cfg.cInst → exec (.jnz a) s = .next { s with stack := below, ip := a }) ∧
      (v = 0 → exec (.jnz a) s = .next { s with stack := below, ip := s.ip + 3 }) ∧
      (v ≠ 0 → s.cfg.cInst < a → Faults s .invalidJumpTarget .jnz (exec (.jnz a) s))) ∧
    (s.stack = [] → Faults s .stackUnderflow .jnz (exec (.jnz a) s))

/-- R101, R105 (that the sum wraps is D6 and the record D11, the spec's own decisions): ADD replaces the two top elements by their sum; the
result is exact wherever the sum fits. With fewer than two elements it raises StackUnderflow. -/
def Obligations.AddEffect : Prop :=
  ∀ s : State,
    (∀ below y x, s.stack = below ++ [y, x] →
      exec .add s = .next { s with stack := below ++ [y + x], ip := s.ip + 1 } ∧
      (-2 ^ 31 ≤ y.toInt + x.toInt → y.toInt + x.toInt < 2 ^ 31 → (y + x).toInt = y.toInt + x.toInt)) ∧
    (s.stack.length < 2 → Faults s .stackUnderflow .add (exec .add s))

/-- R102, R105 (D6, D11): SUB gives second minus top. -/
def Obligations.SubEffect : Prop :=
  ∀ s : State,
    (∀ below y x, s.stack = below ++ [y, x] →
      exec .sub s = .next { s with stack := below ++ [y - x], ip := s.ip + 1 } ∧
      (-2 ^ 31 ≤ y.toInt - x.toInt → y.toInt - x.toInt < 2 ^ 31 → (y - x).toInt = y.toInt - x.toInt)) ∧
    (s.stack.length < 2 → Faults s .stackUnderflow .sub (exec .sub s))

/-- R103, R105 (D6, D11): MUL gives the low 32 bits of the product. -/
def Obligations.MulEffect : Prop :=
  ∀ s : State,
    (∀ below y x, s.stack = below ++ [y, x] →
      exec .mul s = .next { s with stack := below ++ [y * x], ip := s.ip + 1 } ∧
      (-2 ^ 31 ≤ y.toInt * x.toInt → y.toInt * x.toInt < 2 ^ 31 → (y * x).toInt = y.toInt * x.toInt)) ∧
    (s.stack.length < 2 → Faults s .stackUnderflow .mul (exec .mul s))

/-- R104, R106 (the wrapped quotient of INT_MIN and -1 is D7 and the record D11, the spec's own decisions): DIV gives second divided by
top, truncating toward zero; by 0 it raises DivisionByZero and pops nothing; the depth is checked first. -/
def Obligations.DivEffect : Prop :=
  ∀ s : State,
    (∀ below y x, s.stack = below ++ [y, x] →
      (x ≠ 0 →
        exec .div s = .next { s with stack := below ++ [y.sdiv x], ip := s.ip + 1 } ∧
        ((y.toInt ≠ -2 ^ 31 ∨ x.toInt ≠ -1) → (y.sdiv x).toInt = y.toInt.tdiv x.toInt) ∧
        (y.toInt = -2 ^ 31 → x.toInt = -1 → y.sdiv x = y)) ∧
      (x = 0 → Faults s .divisionByZero .div (exec .div s))) ∧
    (s.stack.length < 2 → Faults s .stackUnderflow .div (exec .div s))

/-- R120: PRINT appends the top to `out`, pops it and moves `ip` by 1; on an empty stack it raises StackUnderflow and
emits nothing (the record: D11). -/
def Obligations.PrintEffect : Prop :=
  ∀ s : State,
    (∀ below v, s.stack = below ++ [v] →
      exec .print s = .next { s with stack := below, out := s.out ++ [v], ip := s.ip + 1 }) ∧
    (s.stack = [] → Faults s .stackUnderflow .print (exec .print s))

/-- R121 (that `ip` ends one past the opcode is an inference the spec marks as its own): STOP enters Halted and leaves
the stack, the registers, the output and the record as they are. -/
def Obligations.StopEffect : Prop :=
  ∀ s : State, exec .stop s = .next { s with ip := s.ip + 1, runState := .halted }

/-! ### Arithmetic (00_scope.md section 4, 43_arithmetic.md) -/

/-- `wrap32` is THE signed 32-bit value congruent modulo 2^32 (that results wrap is D6, the spec's own decision). -/
def Obligations.Wrap32Congruent : Prop :=
  ∀ z : Int, -2 ^ 31 ≤ (wrap32 z).toInt ∧ (wrap32 z).toInt < 2 ^ 31 ∧ (wrap32 z).toInt % 2 ^ 32 = z % 2 ^ 32 ∧
    ∀ r : Word, r.toInt % 2 ^ 32 = z % 2 ^ 32 → r = wrap32 z

/-- R106: the quotient is the integer of largest magnitude with |q * x| at most |y| and the sign of y * x, or zero. -/
def Obligations.QuotientTruncates : Prop :=
  ∀ y x : Int, x ≠ 0 →
    (tdiv y x * x).natAbs ≤ y.natAbs ∧ 0 ≤ tdiv y x * (y * x) ∧
    ∀ q : Int, (q * x).natAbs ≤ y.natAbs → q.natAbs ≤ (tdiv y x).natAbs

/-! ### Faults, each with exactly the instructions that raise it -/

/-- R132: StackOverflow is raised by PUSH and LOAD when `sp = C_STACK`, and by nothing else (LOAD of a
register that exists: D2, D10; the record: D11; the spec's own decisions). -/
def Obligations.StackOverflowExactly : Prop :=
  ∀ (i : Instr) (s : State), s.runState = .running → s.stack.length ≤ s.cfg.cStack →
    (Faults s .stackOverflow i.mnemonic (exec i s) ↔
      s.stack.length = s.cfg.cStack ∧ ((∃ v, i = .push v) ∨ ∃ r, i = .load r ∧ r < s.cfg.cRegs))

/-- R133: StackUnderflow is raised with no element by POP, STORE, JZ, JNZ, PRINT and with fewer than two by ADD, SUB,
MUL, DIV, and by nothing else (STORE of a register that exists: the register check comes first, D2, D10; the record:
D11; the spec's own decisions). -/
def Obligations.StackUnderflowExactly : Prop :=
  ∀ (i : Instr) (s : State), s.runState = .running →
    (Faults s .stackUnderflow i.mnemonic (exec i s) ↔
      (s.stack.length < 1 ∧
        (i = .pop ∨ (∃ r, i = .store r ∧ r < s.cfg.cRegs) ∨ (∃ a, i = .jz a) ∨ (∃ a, i = .jnz a) ∨ i = .print)) ∨
      (s.stack.length < 2 ∧ (i = .add ∨ i = .sub ∨ i = .mul ∨ i = .div)))

/-- R135: DivisionByZero is raised by DIV with at least two elements and top 0, and by nothing else (the
record: D11). -/
def Obligations.DivisionByZeroExactly : Prop :=
  ∀ (i : Instr) (s : State), s.runState = .running →
    (Faults s .divisionByZero i.mnemonic (exec i s) ↔ i = .div ∧ ∃ below y, s.stack = below ++ [y, 0])

/-- R134 (JZ and JNZ checking their target only when they jump is D8, the record D11, the spec's own decisions): InvalidJumpTarget is
raised by JMP past `C_INST`, and by JZ and JNZ when they would jump past it, and by nothing else. -/
def Obligations.InvalidJumpTargetExactly : Prop :=
  ∀ (i : Instr) (s : State), s.runState = .running →
    (Faults s .invalidJumpTarget i.mnemonic (exec i s) ↔
      ∃ a, s.cfg.cInst < a ∧
        (i = .jmp a ∨ (i = .jz a ∧ ∃ below, s.stack = below ++ [0]) ∨
          (i = .jnz a ∧ ∃ below v, s.stack = below ++ [v] ∧ v ≠ 0)))

/-! ### Frames and laws over all instructions -/

/-- What every instruction leaves alone: the configuration, `started`, every byte of memory, every register but the one
a STORE names, the output but for PRINT, and every slot that is occupied before and after, but for the slot an
arithmetic result lands in (R30, R44, R100, R120). -/
def Obligations.ExecFrame : Prop :=
  ∀ (i : Instr) (s t : State), exec i s = .next t →
    t.cfg = s.cfg ∧ t.started = s.started ∧ (∀ a, t.imem.read a = s.imem.read a) ∧
    t.registers.length = s.registers.length ∧ (∀ r, i ≠ .store r → t.readReg r = s.readReg r) ∧
    (i ≠ .print → t.out = s.out) ∧
    (∀ k, k < s.stack.length → k < t.stack.length →
      ((i = .add ∨ i = .sub ∨ i = .mul ∨ i = .div) → k + 1 < t.stack.length) → t.slot k = s.slot k) ∧
    (s.runState = .running → t.runState ≠ .faulted → t.fault = s.fault ∧ (i ≠ .stop → t.runState = .running))

/-- R13: how `sp` moves: one up by PUSH and LOAD, one down by POP, STORE, JZ, JNZ, ADD, SUB, MUL, DIV, PRINT, not at all
by NOP, JMP, STOP, nor by a fault. -/
def Obligations.StackPointerMoves : Prop :=
  ∀ (i : Instr) (s t : State), s.runState = .running → exec i s = .next t →
    (t.runState = .faulted → t.sp = s.sp) ∧
    (t.runState ≠ .faulted →
      (i.mnemonic ∈ [.push, .load] → t.sp = s.sp + 1) ∧
      (i.mnemonic ∈ [.pop, .store, .jz, .jnz, .add, .sub, .mul, .div, .print] → t.sp + 1 = s.sp) ∧
      (i.mnemonic ∈ [.nop, .jmp, .stop] → t.sp = s.sp))

/-- R44, R43: no instruction writes instruction memory, so the bytes a fetch sees are the bytes present at `start`. -/
def Obligations.MemoryNeverWritten : Prop :=
  (∀ (i : Instr) (s t : State), exec i s = .next t → t.imem = s.imem) ∧
    ∀ (n : Nat) (s t : State), run n s = .next t → t.imem = s.imem ∧ t.fetchWindow = { s with ip := t.ip }.fetchWindow

/-- R26: the output only ever grows by appending, over any number of steps. -/
def Obligations.OutputOnlyGrows : Prop :=
  ∀ (n : Nat) (s t : State), run n s = .next t → s.out <+: t.out

/-- R40: a register holds what the latest STORE to it wrote: as long as no step runs a STORE to it, it reads as
before. -/
def Obligations.RegisterKeepsLatestStore : Prop :=
  ∀ (r n : Nat) (s t : State), run n s = .next t →
    (∀ k u rest, k < n → run k s = .next u → decode u.cfg.opmap u.fetchWindow ≠ .instr (.store r) rest) →
    t.readReg r = s.readReg r

/-- The round trip of R81: STORE(r) then LOAD(r) leaves the stack as it was, its top in the register too. -/
def Obligations.StoreLoadRoundTrip : Prop :=
  ∀ (s : State) (r : Nat) (below : List Word) (v : Word), s.stack = below ++ [v] → r < s.cfg.cRegs →
    s.registers.length = s.cfg.cRegs → s.stack.length ≤ s.cfg.cStack →
    ∃ t u, exec (.store r) s = .next t ∧ exec (.load r) t = .next u ∧
      u = { s with registers := t.registers, ip := s.ip + 4 } ∧ u.readReg r = v

/-- The stack discipline of R72: PUSH(v) then POP leaves everything but `ip` as it was. -/
def Obligations.PushPopRoundTrip : Prop :=
  ∀ (s : State) (v : Word), s.stack.length < s.cfg.cStack →
    ∃ t, exec (.push v) s = .next t ∧ exec .pop t = .next { s with ip := s.ip + 6 }

/-- The opcode assignment takes no part in what an instruction does (R54): under another OPMAP the same instruction has
the same effect, and a fault differs only in the opcode byte recorded. -/
def Obligations.OpMapIndependence : Prop :=
  ∀ (i : Instr) (s t : State) (om : OpMap), s.runState = .running → exec i s = .next t →
    exec i { s with cfg := { s.cfg with opmap := om } } =
      .next { t with
        cfg := { t.cfg with opmap := om }
        fault := if t.runState = .faulted then { t.fault with opcode := om.byte i.mnemonic } else t.fault }

/-! ### The invariant -/

/-- THE INVARIANT IS KEPT BY EVERY STEP (R26; the clause on the record of a faulted state is D11, the spec's own
decision): the stack within `C_STACK`, the register count, `ip` within `C_INST`, the memory canonical and below
`C_INST`, and the record zero exactly while not Faulted. -/
def Obligations.StepKeepsInvariant : Prop :=
  ∀ s t : State, s.Inv → step s = .next t → t.Inv

/-- The invariant holds right after reset. -/
def Obligations.ResetHasInvariant : Prop := State.reset.Inv

/-- R165: the invariant holds where a run begins, for every configuration and every program that fits. -/
def Obligations.InitHasInvariant : Prop :=
  ∀ (cfg : Config) (p : List Byte), cfg.WF → p.length ≤ cfg.cInst →
    (State.init cfg p).Inv ∧ (State.init cfg p).Executing

/-! ### Reset, load, start -/

/-- R25: every component after reset (the record's zero is D11 and the waiting for `start` D14, the spec's own
decisions). -/
def Obligations.ResetValues : Prop :=
  ∀ s : State,
    (hostReset s).sp = 0 ∧ (∀ r, (hostReset s).readReg r = 0) ∧ (hostReset s).registers.length = s.cfg.cRegs ∧
    (hostReset s).ip = 0 ∧ (∀ a, (hostReset s).imem.read a = 0) ∧ (hostReset s).runState = .running ∧
    (hostReset s).fault = ⟨.none, 0, 0, 0⟩ ∧ (hostReset s).out = [] ∧ (hostReset s).started = false

/-- R161: there is one kind of reset and nothing persists: two machines of one configuration are the same after it. -/
def Obligations.ResetForgets : Prop :=
  ∀ s s' : State, s.cfg = s'.cfg → hostReset s = hostReset s' ∧ ∀ a, (hostReset s).imem.read a = 0

/-- R162: `load(p)` after `reset`, for a program that fits, writes its bytes from address 0, leaves every other byte 0,
and changes nothing else. -/
def Obligations.LoadWritesProgram : Prop :=
  ∀ (s : State) (p : List Byte), p.length ≤ s.cfg.cInst →
    ∃ m, load p (hostReset s) = .next { hostReset s with imem := m } ∧ m.wf ∧ m.Below s.cfg.cInst ∧
      (∀ k, (h : k < p.length) → m.read k = p[k]) ∧ ∀ k, p.length ≤ k → m.read k = 0

/-- R163 (that no run begins is D18, the spec's own decision): `load` of a program longer than `C_INST` answers
ProgramTooLarge, code 7. -/
def Obligations.TooLargeIsRefused : Prop :=
  ∀ (s : State) (p : List Byte), s.started = false → s.cfg.cInst < p.length →
    load p s = .fault .programTooLarge ∧ Fault.programTooLarge.kind.code = 7

/-- R164, R165 (`start` is D14, the spec's own decision): reset, load, start, in that order, give the initial state of
the run. -/
def Obligations.LaunchGivesInit : Prop :=
  ∀ (s : State) (p : List Byte), p.length ≤ s.cfg.cInst →
    ∃ t, load p (hostReset s) = .next t ∧ start t = .next (State.init s.cfg p)

/-- R162: the core does not know the program's length: zero bytes after the program change nothing. -/
def Obligations.TrailingZerosChangeNothing : Prop :=
  ∀ (cfg : Config) (p : List Byte) (k : Nat), State.init cfg (p ++ List.replicate k 0) = State.init cfg p

/-! ### Runs -/

/-- R36: under an assignment whose byte 0x00 is NOP (as in the reference assignment, D4, the spec's own choice), a run
that reaches the zero padding runs off the end and faults TruncatedProgram there, everything else as it was. -/
def Obligations.RunsOffTheEnd : Prop :=
  ∀ s : State, s.Executing → s.cfg.opmap.nop = 0 → s.ip ≤ s.cfg.cInst →
    (∀ a, s.ip ≤ a → a < s.cfg.cInst → s.imem.read a = 0) →
    run (s.cfg.cInst - s.ip + 1) s = .next { s with
      ip := s.cfg.cInst
      runState := .faulted
      fault := { kind := .truncatedProgram, opcode := 0, ip := s.cfg.cInst, sp := s.stack.length } }

/-- R169: straight-line execution always ends: within `C_INST - ip + 1` steps the run is terminal or stands at a
JMP, JZ or JNZ. -/
def Obligations.StraightLineEnds : Prop :=
  ∀ s : State, s.Executing →
    ∃ n t, n ≤ s.cfg.cInst - s.ip + 1 ∧ run n s = .next t ∧
      (t.Terminal ∨ ∃ a rest, decode t.cfg.opmap t.fetchWindow = .instr (.jmp a) rest ∨
        decode t.cfg.opmap t.fetchWindow = .instr (.jz a) rest ∨
        decode t.cfg.opmap t.fetchWindow = .instr (.jnz a) rest)

/-- R90, R169: a JMP to itself runs forever and changes nothing. -/
def Obligations.SelfLoopRunsForever : Prop :=
  ∀ (s : State) (rest : List Byte), s.Executing → decode s.cfg.opmap s.fetchWindow = .instr (.jmp s.ip) rest →
    ∀ n, run n s = .next s

/-- R168, R165: a run has at most one end. -/
def Obligations.RunEndIsUnique : Prop :=
  ∀ s t u : State, EndsIn s t → EndsIn s u → t = u

/-- R170: a run and its continuation after one step are observably equal. -/
def Obligations.StepKeepsObservation : Prop :=
  ∀ s t : State, step s = .next t → ObservablyEqual s t

/-- R20 (the sign, the leading zeros and the newline byte are D15, the spec's own decision): the text of a value is a
minus sign if it is negative, decimal digits that read back as its magnitude, with no leading zero, and one line
feed. -/
def Obligations.RenderIsDecimal : Prop :=
  ∀ v : Word, ∃ ds : List Byte,
    renderWord v = (if v.toInt < 0 then [0x2D] else []) ++ ds ++ [0x0A] ∧
    (∀ d ∈ ds, 0x30 ≤ d.toNat ∧ d.toNat ≤ 0x39) ∧
    ds.foldl (fun acc d => acc * 10 + (d.toNat - 0x30)) 0 = v.toInt.natAbs ∧
    ds ≠ [] ∧ (ds.head? = some 0x30 → ds = [0x30])
end

