-- ==== Sys2Proof/Laws/Decode.lean ====
section
/-! SUPPORT. Laws/Decode.lean: the opcode map read both ways, little-endian numbers read both ways. -/

namespace Sys2Proof

theorem Mnemonic.mem_all (m : Mnemonic) : m ∈ Mnemonic.all := by cases m <;> decide

theorem OpMap.bytes_eq_map (om : OpMap) : om.bytes = Mnemonic.all.map om.byte := rfl

/-- A byte that selects an operation is the byte OPMAP gives that operation. -/
theorem OpMap.byte_of_lookup {om : OpMap} {b : Byte} {m : Mnemonic} (h : om.lookup b = some m) : om.byte m = b := by
  simpa using List.find?_some h

/-- An injective OPMAP gives two operations two bytes. -/
theorem OpMap.byte_inj {om : OpMap} (ho : om.Injective) {m m' : Mnemonic} (h : om.byte m = om.byte m') : m = m' :=
  List.inj_on_of_nodup_map (om.bytes_eq_map ▸ ho : (Mnemonic.all.map om.byte).Nodup) m.mem_all m'.mem_all h

/-- Under an injective OPMAP the byte of an operation selects that operation. -/
theorem OpMap.lookup_byte {om : OpMap} (ho : om.Injective) (m : Mnemonic) : om.lookup (om.byte m) = some m := by
  cases h : om.lookup (om.byte m) with
  | none =>
    have := List.find?_eq_none.mp h m m.mem_all
    simp at this
  | some m' => rw [OpMap.byte_inj ho (OpMap.byte_of_lookup h)]

@[simp] theorem toLittleEndian_length (n x : Nat) : (toLittleEndian n x).length = n := by
  induction n generalizing x with
  | zero => rfl
  | succ n ih => simp [toLittleEndian, ih]

theorem littleEndian_lt (bs : List Byte) : littleEndian bs < 256 ^ bs.length := by
  induction bs with
  | nil => simp [littleEndian]
  | cons b bs ih =>
    have := b.isLt
    simp only [littleEndian, List.length_cons, Nat.pow_succ]
    omega

/-- Reading back the bytes of a number gives its low bytes. -/
theorem littleEndian_toLittleEndian (n x : Nat) : littleEndian (toLittleEndian n x) = x % 256 ^ n := by
  induction n generalizing x with
  | zero => simp [toLittleEndian, littleEndian, Nat.mod_one]
  | succ n ih =>
    have h : (256 : Nat) ^ (n + 1) = 256 * 256 ^ n := by rw [Nat.pow_succ, Nat.mul_comm]
    rw [h, Nat.mod_mul, toLittleEndian, littleEndian, ih, BitVec.toNat_ofNat]

/-- The bytes of the number some bytes read as are those bytes. -/
theorem toLittleEndian_littleEndian (bs : List Byte) : toLittleEndian bs.length (littleEndian bs) = bs := by
  induction bs with
  | nil => rfl
  | cons b bs ih =>
    have hb := b.isLt
    have h1 : (b.toNat + 256 * littleEndian bs) / 256 = littleEndian bs := by omega
    have h2 : BitVec.ofNat 8 (b.toNat + 256 * littleEndian bs) = b := by
      apply BitVec.eq_of_toNat_eq
      simp only [BitVec.toNat_ofNat]
      omega
    simp only [List.length_cons, littleEndian, toLittleEndian, h1, h2, ih]

@[simp] theorem Mnemonic.mnemonic_assemble (m : Mnemonic) (raw : Nat) : (m.assemble raw).mnemonic = m := by
  cases m <;> rfl

@[simp] theorem encode_length (om : OpMap) (i : Instr) : (encode om i).length = i.mnemonic.length := by
  simp [encode, Mnemonic.length, Nat.add_comm]

/-- Everything the decoder can answer: what the bytes are where it answers an instruction. -/
theorem decode_cases {om : OpMap} {bs rest : List Byte} {i : Instr} (h : decode om bs = .instr i rest) :
    ∃ op imm m, bs = op :: imm ∧ om.lookup op = some m ∧ m.width ≤ imm.length ∧
      i = m.assemble (littleEndian (imm.take m.width)) ∧ rest = imm.drop m.width := by
  match bs with
  | [] => simp [decode] at h
  | op :: imm =>
    simp only [decode] at h
    split at h
    · cases h
    · rename_i m hm
      split at h
      · cases h
      · injection h with h1 h2
        exact ⟨op, imm, m, rfl, hm, by omega, h1.symm, h2.symm⟩

end Sys2Proof
end

