-- ==== Sys2Proof/Laws/HostInterface.lean ====
section
/-! SUPPORT. Laws/HostInterface.lean: what `status` shows, what `reset` leaves in each field, and all that `load` and
`start` can do, so that no proof unfolds a transaction. -/

namespace Sys2Proof.Machine

variable (s : State)

@[simp] theorem hostStatus_runState : (hostStatus s).runState = s.runState := rfl
@[simp] theorem hostStatus_ip : (hostStatus s).ip = s.ip := rfl
@[simp] theorem hostStatus_sp : (hostStatus s).sp = s.stack.length := rfl
@[simp] theorem hostStatus_fault :
    (hostStatus s).fault = if s.runState = .faulted then some s.fault else none := rfl

@[simp] theorem hostReset_cfg : (hostReset s).cfg = s.cfg := rfl
@[simp] theorem hostReset_stack : (hostReset s).stack = [] := rfl
@[simp] theorem hostReset_registers : (hostReset s).registers = List.replicate s.cfg.cRegs 0 := rfl
@[simp] theorem hostReset_ip : (hostReset s).ip = 0 := rfl
@[simp] theorem hostReset_imem : (hostReset s).imem = [] := rfl
@[simp] theorem hostReset_runState : (hostReset s).runState = .running := rfl
@[simp] theorem hostReset_fault : (hostReset s).fault = FaultRecord.zero := rfl
@[simp] theorem hostReset_out : (hostReset s).out = [] := rfl
@[simp] theorem hostReset_started : (hostReset s).started = false := rfl

/-- All that `load` can do. -/
theorem load_cases (p : List Byte) :
    (s.started = true ∧ load p s = .refused .loadAfterStart) ∨
    (s.started = false ∧ s.cfg.cInst < p.length ∧ load p s = .fault .programTooLarge) ∨
    (s.started = false ∧ p.length ≤ s.cfg.cInst ∧
      load p s = .next { s with imem := Memory.writeBytes s.imem 0 p }) := by
  unfold load
  cases s.started with
  | true => exact .inl ⟨rfl, rfl⟩
  | false =>
    by_cases h : s.cfg.cInst < p.length
    · exact .inr (.inl ⟨rfl, h, if_pos h⟩)
    · exact .inr (.inr ⟨rfl, Nat.le_of_not_lt h, if_neg h⟩)

/-- All that `start` can do. -/
theorem start_cases :
    (s.started = true ∧ start s = .refused .startAfterStart) ∨
    (s.started = false ∧ start s = .next { s with started := true }) := by
  unfold start
  cases s.started with
  | true => exact .inl ⟨rfl, rfl⟩
  | false => exact .inr ⟨rfl, rfl⟩

end Sys2Proof.Machine
end

