-- ==== Sys2Proof/Laws/Memory.lean ====
section
/-! SUPPORT. Laws/Memory.lean: reading after writing, and the canonical form every memory operation keeps. -/

namespace Sys2Proof.Machine

/-- An address below every listed one reads as unlisted. -/
theorem Memory.read_eq_unlisted_of_lt {m : Memory} {a : Nat} (h : ∀ p ∈ m, a < p.1) : m.read a = unlistedByte := by
  induction m with
  | nil => rfl
  | cons p rest ih =>
    have hp : a < p.1 := h p (by simp)
    have : ¬ p.1 = a := by omega
    simp [Memory.read, this, ih (fun q hq => h q (by simp [hq]))]

/-- Reading back the address just written gives the value written. -/
theorem Memory.read_write_same {m : Memory} (hm : m.wf) (a : Nat) (v : Byte) : (m.write a v).read a = v := by
  obtain ⟨hs, hz⟩ := hm
  induction m with
  | nil => by_cases hv : v = unlistedByte <;> simp [Memory.write, Memory.read, hv]
  | cons p rest ih =>
    obtain ⟨k, b⟩ := p
    rw [List.pairwise_cons] at hs
    have tail := ih hs.2 (fun q hq => hz q (by simp [hq]))
    by_cases h1 : a < k
    · by_cases hv : v = unlistedByte
      · have : Memory.read ((k, b) :: rest) a = unlistedByte := by
          apply Memory.read_eq_unlisted_of_lt
          intro q hq
          rcases List.mem_cons.mp hq with rfl | hq
          · exact h1
          · exact Nat.lt_trans h1 (hs.1 q hq)
        simp [Memory.write, h1, hv, this]
      · simp [Memory.write, h1, hv, Memory.read]
    · by_cases h2 : a = k
      · subst h2
        by_cases hv : v = unlistedByte
        · simp [Memory.write, hv, Memory.read_eq_unlisted_of_lt (fun q hq => hs.1 q hq)]
        · simp [Memory.write, hv, Memory.read]
      · have h3 : ¬ k = a := fun h => h2 h.symm
        simp [Memory.write, h1, h2, Memory.read, h3, tail]

/-- A write leaves every other address alone. -/
theorem Memory.read_write_other (m : Memory) {a c : Nat} (v : Byte) (hca : c ≠ a) :
    (m.write a v).read c = m.read c := by
  have hac : ¬ a = c := fun h => hca h.symm
  induction m with
  | nil => by_cases hv : v = unlistedByte <;> simp [Memory.write, Memory.read, hv, hac]
  | cons p rest ih =>
    obtain ⟨k, b⟩ := p
    by_cases h1 : a < k
    · by_cases hv : v = unlistedByte <;> simp [Memory.write, h1, hv, Memory.read, hac]
    · by_cases h2 : a = k
      · subst h2
        by_cases hv : v = unlistedByte <;> simp [Memory.write, hv, Memory.read, hac]
      · simp only [Memory.write, h1, h2, if_false, Memory.read, ih]

/-- Every entry after a write is the one written or an old one. -/
theorem Memory.mem_write {m : Memory} {a : Nat} {v : Byte} {p : Host.Cell} (hp : p ∈ m.write a v) :
    (p = (a, v) ∧ v ≠ unlistedByte) ∨ p ∈ m := by
  induction m with
  | nil =>
    by_cases hv : v = unlistedByte <;> simp_all [Memory.write]
  | cons q rest ih =>
    obtain ⟨k, b⟩ := q
    simp only [Memory.write] at hp
    split at hp
    · split at hp
      · exact .inr hp
      · rcases List.mem_cons.mp hp with rfl | hp
        · exact .inl ⟨rfl, ‹_›⟩
        · exact .inr hp
    · split at hp
      · split at hp
        · exact .inr (by simp [hp])
        · rcases List.mem_cons.mp hp with rfl | hp
          · exact .inl ⟨rfl, ‹_›⟩
          · exact .inr (by simp [hp])
      · rcases List.mem_cons.mp hp with rfl | hp
        · exact .inr (by simp)
        · rcases ih hp with h | h
          · exact .inl h
          · exact .inr (by simp [h])

/-- A write keeps the canonical form. -/
theorem Memory.write_wf {m : Memory} (hm : m.wf) (a : Nat) (v : Byte) : (m.write a v).wf := by
  refine ⟨?_, fun p hp => ?_⟩
  · obtain ⟨hs, -⟩ := hm
    induction m with
    | nil => by_cases hv : v = unlistedByte <;> simp [Memory.write, hv]
    | cons q rest ih =>
      obtain ⟨k, b⟩ := q
      have hs' := List.pairwise_cons.mp hs
      simp only [Memory.write]
      split
      · rename_i h1
        split
        · exact hs
        · refine List.pairwise_cons.mpr ⟨fun r hr => ?_, hs⟩
          rcases List.mem_cons.mp hr with rfl | hr
          · exact h1
          · exact Nat.lt_trans h1 (hs'.1 r hr)
      · split
        · rename_i h2
          subst h2
          split
          · exact hs'.2
          · exact List.pairwise_cons.mpr ⟨hs'.1, hs'.2⟩
        · refine List.pairwise_cons.mpr ⟨fun r hr => ?_, ih hs'.2⟩
          rcases Memory.mem_write hr with ⟨rfl, -⟩ | hr
          · change k < a
            omega
          · exact hs'.1 r hr
  · rcases Memory.mem_write hp with ⟨rfl, hv⟩ | hp
    · exact hv
    · exact hm.2 p hp

/-- A write below a bound keeps every listed address below it. -/
theorem Memory.write_below {m : Memory} {n : Nat} (hm : m.Below n) {a : Nat} (ha : a < n) (v : Byte) :
    (m.write a v).Below n := by
  intro p hp
  rcases Memory.mem_write hp with ⟨rfl, -⟩ | hp
  · exact ha
  · exact hm p hp

/-- Writing bytes keeps the canonical form. -/
theorem Memory.writeBytes_wf {m : Memory} (hm : m.wf) (a : Nat) (bs : List Byte) : (m.writeBytes a bs).wf := by
  induction bs generalizing m a with
  | nil => exact hm
  | cons b bs ih => exact ih (Memory.write_wf hm a b) (a + 1)

/-- Writing bytes below a bound keeps every listed address below it. -/
theorem Memory.writeBytes_below {m : Memory} {n : Nat} (hm : m.Below n) {a : Nat} {bs : List Byte}
    (ha : a + bs.length ≤ n) : (m.writeBytes a bs).Below n := by
  induction bs generalizing m a with
  | nil => exact hm
  | cons b bs ih =>
    simp only [List.length_cons] at ha
    exact ih (Memory.write_below hm (by omega) b) (by omega)

/-- What every address reads as after bytes were written from `a` on. -/
theorem Memory.read_writeBytes {m : Memory} (hm : m.wf) (a : Nat) (bs : List Byte) (c : Nat) :
    (m.writeBytes a bs).read c = if a ≤ c ∧ c < a + bs.length then bs.getD (c - a) 0 else m.read c := by
  induction bs generalizing m a with
  | nil =>
    have : ¬ (a ≤ c ∧ c < a) := by omega
    simp [Memory.writeBytes, this]
  | cons b bs ih =>
    rw [Memory.writeBytes, ih (Memory.write_wf hm a b)]
    by_cases hc : c = a
    · subst hc
      simp [Memory.read_write_same hm]
    · rw [Memory.read_write_other m b hc]
      by_cases h : a + 1 ≤ c ∧ c < a + 1 + bs.length
      · have h2 : a ≤ c ∧ c < a + (b :: bs).length := by simp only [List.length_cons]; omega
        have h3 : c - a = (c - (a + 1)) + 1 := by omega
        rw [if_pos h, if_pos h2, h3]
        rfl
      · have h2 : ¬ (a ≤ c ∧ c < a + (b :: bs).length) := by simp only [List.length_cons]; omega
        rw [if_neg h, if_neg h2]

@[simp] theorem Memory.readBytes_length (m : Memory) (a n : Nat) : (m.readBytes a n).length = n := by
  induction n generalizing a with
  | zero => rfl
  | succ n ih => simp [Memory.readBytes, ih]

/-- Reading more bytes: the first ones, then the rest. -/
theorem Memory.readBytes_add (m : Memory) (a n k : Nat) :
    m.readBytes a (n + k) = m.readBytes a n ++ m.readBytes (a + n) k := by
  induction n generalizing a with
  | zero => simp [Memory.readBytes]
  | succ n ih =>
    have : a + 1 + n = a + (n + 1) := by omega
    rw [Nat.succ_add, Memory.readBytes, ih, Memory.readBytes, this, List.cons_append]

end Sys2Proof.Machine
end

