-- ==== Sys2Proof/Laws/State.lean ====
section
/-! SUPPORT. Laws/State.lean: what each update of the state leaves in each field, so that no proof unfolds a record
update. -/

namespace Sys2Proof.Machine

variable (s : State)

@[simp] theorem State.sp_eq : s.sp = s.stack.length := rfl

@[simp] theorem State.pushed_cfg (v : Word) : (s.pushed v).cfg = s.cfg := rfl
@[simp] theorem State.pushed_stack (v : Word) : (s.pushed v).stack = s.stack ++ [v] := rfl
@[simp] theorem State.pushed_registers (v : Word) : (s.pushed v).registers = s.registers := rfl
@[simp] theorem State.pushed_ip (v : Word) : (s.pushed v).ip = s.ip := rfl
@[simp] theorem State.pushed_imem (v : Word) : (s.pushed v).imem = s.imem := rfl
@[simp] theorem State.pushed_runState (v : Word) : (s.pushed v).runState = s.runState := rfl
@[simp] theorem State.pushed_fault (v : Word) : (s.pushed v).fault = s.fault := rfl
@[simp] theorem State.pushed_out (v : Word) : (s.pushed v).out = s.out := rfl
@[simp] theorem State.pushed_started (v : Word) : (s.pushed v).started = s.started := rfl

@[simp] theorem State.dropped_cfg (n : Nat) : (s.dropped n).cfg = s.cfg := rfl
@[simp] theorem State.dropped_stack (n : Nat) : (s.dropped n).stack = s.stack.take (s.stack.length - n) := rfl
@[simp] theorem State.dropped_registers (n : Nat) : (s.dropped n).registers = s.registers := rfl
@[simp] theorem State.dropped_ip (n : Nat) : (s.dropped n).ip = s.ip := rfl
@[simp] theorem State.dropped_imem (n : Nat) : (s.dropped n).imem = s.imem := rfl
@[simp] theorem State.dropped_runState (n : Nat) : (s.dropped n).runState = s.runState := rfl
@[simp] theorem State.dropped_fault (n : Nat) : (s.dropped n).fault = s.fault := rfl
@[simp] theorem State.dropped_out (n : Nat) : (s.dropped n).out = s.out := rfl
@[simp] theorem State.dropped_started (n : Nat) : (s.dropped n).started = s.started := rfl

@[simp] theorem State.writeReg_cfg (i : Nat) (v : Word) : (s.writeReg i v).cfg = s.cfg := rfl
@[simp] theorem State.writeReg_stack (i : Nat) (v : Word) : (s.writeReg i v).stack = s.stack := rfl
@[simp] theorem State.writeReg_registers (i : Nat) (v : Word) : (s.writeReg i v).registers = s.registers.set i v := rfl
@[simp] theorem State.writeReg_ip (i : Nat) (v : Word) : (s.writeReg i v).ip = s.ip := rfl
@[simp] theorem State.writeReg_imem (i : Nat) (v : Word) : (s.writeReg i v).imem = s.imem := rfl
@[simp] theorem State.writeReg_runState (i : Nat) (v : Word) : (s.writeReg i v).runState = s.runState := rfl
@[simp] theorem State.writeReg_fault (i : Nat) (v : Word) : (s.writeReg i v).fault = s.fault := rfl
@[simp] theorem State.writeReg_out (i : Nat) (v : Word) : (s.writeReg i v).out = s.out := rfl
@[simp] theorem State.writeReg_started (i : Nat) (v : Word) : (s.writeReg i v).started = s.started := rfl

@[simp] theorem State.setIp_cfg (t : Nat) : (s.setIp t).cfg = s.cfg := rfl
@[simp] theorem State.setIp_stack (t : Nat) : (s.setIp t).stack = s.stack := rfl
@[simp] theorem State.setIp_registers (t : Nat) : (s.setIp t).registers = s.registers := rfl
@[simp] theorem State.setIp_ip (t : Nat) : (s.setIp t).ip = t := rfl
@[simp] theorem State.setIp_imem (t : Nat) : (s.setIp t).imem = s.imem := rfl
@[simp] theorem State.setIp_runState (t : Nat) : (s.setIp t).runState = s.runState := rfl
@[simp] theorem State.setIp_fault (t : Nat) : (s.setIp t).fault = s.fault := rfl
@[simp] theorem State.setIp_out (t : Nat) : (s.setIp t).out = s.out := rfl
@[simp] theorem State.setIp_started (t : Nat) : (s.setIp t).started = s.started := rfl

@[simp] theorem State.advance_cfg (m : Mnemonic) : (s.advance m).cfg = s.cfg := rfl
@[simp] theorem State.advance_stack (m : Mnemonic) : (s.advance m).stack = s.stack := rfl
@[simp] theorem State.advance_registers (m : Mnemonic) : (s.advance m).registers = s.registers := rfl
@[simp] theorem State.advance_ip (m : Mnemonic) : (s.advance m).ip = s.ip + m.length := rfl
@[simp] theorem State.advance_imem (m : Mnemonic) : (s.advance m).imem = s.imem := rfl
@[simp] theorem State.advance_runState (m : Mnemonic) : (s.advance m).runState = s.runState := rfl
@[simp] theorem State.advance_fault (m : Mnemonic) : (s.advance m).fault = s.fault := rfl
@[simp] theorem State.advance_out (m : Mnemonic) : (s.advance m).out = s.out := rfl
@[simp] theorem State.advance_started (m : Mnemonic) : (s.advance m).started = s.started := rfl

@[simp] theorem State.emit_cfg (v : Word) : (s.emit v).cfg = s.cfg := rfl
@[simp] theorem State.emit_stack (v : Word) : (s.emit v).stack = s.stack := rfl
@[simp] theorem State.emit_registers (v : Word) : (s.emit v).registers = s.registers := rfl
@[simp] theorem State.emit_ip (v : Word) : (s.emit v).ip = s.ip := rfl
@[simp] theorem State.emit_imem (v : Word) : (s.emit v).imem = s.imem := rfl
@[simp] theorem State.emit_runState (v : Word) : (s.emit v).runState = s.runState := rfl
@[simp] theorem State.emit_fault (v : Word) : (s.emit v).fault = s.fault := rfl
@[simp] theorem State.emit_out (v : Word) : (s.emit v).out = s.out ++ [v] := rfl
@[simp] theorem State.emit_started (v : Word) : (s.emit v).started = s.started := rfl

@[simp] theorem State.halt_cfg : s.halt.cfg = s.cfg := rfl
@[simp] theorem State.halt_stack : s.halt.stack = s.stack := rfl
@[simp] theorem State.halt_registers : s.halt.registers = s.registers := rfl
@[simp] theorem State.halt_ip : s.halt.ip = s.ip := rfl
@[simp] theorem State.halt_imem : s.halt.imem = s.imem := rfl
@[simp] theorem State.halt_runState : s.halt.runState = .halted := rfl
@[simp] theorem State.halt_fault : s.halt.fault = s.fault := rfl
@[simp] theorem State.halt_out : s.halt.out = s.out := rfl
@[simp] theorem State.halt_started : s.halt.started = s.started := rfl

@[simp] theorem State.raise_cfg (k : FaultKind) (op : Byte) : (s.raise k op).cfg = s.cfg := rfl
@[simp] theorem State.raise_stack (k : FaultKind) (op : Byte) : (s.raise k op).stack = s.stack := rfl
@[simp] theorem State.raise_registers (k : FaultKind) (op : Byte) : (s.raise k op).registers = s.registers := rfl
@[simp] theorem State.raise_ip (k : FaultKind) (op : Byte) : (s.raise k op).ip = s.ip := rfl
@[simp] theorem State.raise_imem (k : FaultKind) (op : Byte) : (s.raise k op).imem = s.imem := rfl
@[simp] theorem State.raise_runState (k : FaultKind) (op : Byte) : (s.raise k op).runState = .faulted := rfl
@[simp] theorem State.raise_fault (k : FaultKind) (op : Byte) : (s.raise k op).fault = ⟨k, op, s.ip, s.stack.length⟩ := rfl
@[simp] theorem State.raise_out (k : FaultKind) (op : Byte) : (s.raise k op).out = s.out := rfl
@[simp] theorem State.raise_started (k : FaultKind) (op : Byte) : (s.raise k op).started = s.started := rfl

@[simp] theorem State.raiseIn_cfg (k : FaultKind) (m : Mnemonic) : (s.raiseIn k m).cfg = s.cfg := rfl
@[simp] theorem State.raiseIn_stack (k : FaultKind) (m : Mnemonic) : (s.raiseIn k m).stack = s.stack := rfl
@[simp] theorem State.raiseIn_registers (k : FaultKind) (m : Mnemonic) : (s.raiseIn k m).registers = s.registers := rfl
@[simp] theorem State.raiseIn_ip (k : FaultKind) (m : Mnemonic) : (s.raiseIn k m).ip = s.ip := rfl
@[simp] theorem State.raiseIn_imem (k : FaultKind) (m : Mnemonic) : (s.raiseIn k m).imem = s.imem := rfl
@[simp] theorem State.raiseIn_runState (k : FaultKind) (m : Mnemonic) : (s.raiseIn k m).runState = .faulted := rfl
@[simp] theorem State.raiseIn_fault (k : FaultKind) (m : Mnemonic) : (s.raiseIn k m).fault = ⟨k, s.cfg.opmap.byte m, s.ip, s.stack.length⟩ := rfl
@[simp] theorem State.raiseIn_out (k : FaultKind) (m : Mnemonic) : (s.raiseIn k m).out = s.out := rfl
@[simp] theorem State.raiseIn_started (k : FaultKind) (m : Mnemonic) : (s.raiseIn k m).started = s.started := rfl

@[simp] theorem State.arithResult_cfg (m : Mnemonic) (z : Int) : (s.arithResult m z).cfg = s.cfg := rfl
@[simp] theorem State.arithResult_stack (m : Mnemonic) (z : Int) : (s.arithResult m z).stack = s.stack.take (s.stack.length - 2) ++ [wrap32 z] := rfl
@[simp] theorem State.arithResult_registers (m : Mnemonic) (z : Int) : (s.arithResult m z).registers = s.registers := rfl
@[simp] theorem State.arithResult_ip (m : Mnemonic) (z : Int) : (s.arithResult m z).ip = s.ip + m.length := rfl
@[simp] theorem State.arithResult_imem (m : Mnemonic) (z : Int) : (s.arithResult m z).imem = s.imem := rfl
@[simp] theorem State.arithResult_runState (m : Mnemonic) (z : Int) : (s.arithResult m z).runState = s.runState := rfl
@[simp] theorem State.arithResult_fault (m : Mnemonic) (z : Int) : (s.arithResult m z).fault = s.fault := rfl
@[simp] theorem State.arithResult_out (m : Mnemonic) (z : Int) : (s.arithResult m z).out = s.out := rfl
@[simp] theorem State.arithResult_started (m : Mnemonic) (z : Int) : (s.arithResult m z).started = s.started := rfl

end Sys2Proof.Machine
end

