-- ==== Sys2Proof/Laws/Ops.lean ====
section
/-! SUPPORT. Laws/Ops.lean: what each shared operation can do, said once, and one inversion lemma per meaning. -/

namespace Sys2Proof.Machine

/-! ### Preconditions -/

/-- Everything a check can answer. -/
theorem State.check_cases {s t : State} {c : Bool} {k : FaultKind} {m : Mnemonic} {go : Result}
    (h : s.check c k m go = .next t) : (c = true ∧ t = s.raiseIn k m) ∨ (c = false ∧ go = .next t) := by
  cases c with
  | true => exact .inl ⟨rfl, by simpa [State.check] using h.symm⟩
  | false => exact .inr ⟨rfl, by simpa [State.check] using h⟩

@[simp] theorem State.check_true (s : State) (k : FaultKind) (m : Mnemonic) (go : Result) :
    s.check true k m go = .next (s.raiseIn k m) := rfl

@[simp] theorem State.check_false (s : State) (k : FaultKind) (m : Mnemonic) (go : Result) :
    s.check false k m go = go := rfl

/-- Everything the room check can answer. -/
theorem State.needRoom_cases {s t : State} {m : Mnemonic} {go : Result} (h : s.needRoom m go = .next t) :
    (s.cfg.cStack ≤ s.stack.length ∧ t = s.raiseIn .stackOverflow m) ∨
      (s.stack.length < s.cfg.cStack ∧ go = .next t) := by
  rcases State.check_cases h with ⟨hc, rfl⟩ | ⟨hc, h⟩
  · exact .inl ⟨of_decide_eq_true hc, rfl⟩
  · exact .inr ⟨Nat.not_le.mp (of_decide_eq_false hc), h⟩

/-- Everything the depth check can answer. -/
theorem State.needDepth_cases {s t : State} {n : Nat} {m : Mnemonic} {go : Result}
    (h : s.needDepth n m go = .next t) :
    (s.stack.length < n ∧ t = s.raiseIn .stackUnderflow m) ∨ (n ≤ s.stack.length ∧ go = .next t) := by
  rcases State.check_cases h with ⟨hc, rfl⟩ | ⟨hc, h⟩
  · exact .inl ⟨of_decide_eq_true hc, rfl⟩
  · exact .inr ⟨Nat.not_lt.mp (of_decide_eq_false hc), h⟩

/-- Everything the register check can answer. -/
theorem State.needReg_cases {s t : State} {r : Nat} {m : Mnemonic} {go : Result} (h : s.needReg r m go = .next t) :
    (s.cfg.cRegs ≤ r ∧ t = s.raiseIn .invalidRegister m) ∨ (r < s.cfg.cRegs ∧ go = .next t) := by
  rcases State.check_cases h with ⟨hc, rfl⟩ | ⟨hc, h⟩
  · exact .inl ⟨by simpa [State.regExists] using hc, rfl⟩
  · exact .inr ⟨by simpa [State.regExists] using hc, h⟩

theorem State.needRoom_ok {s : State} (h : s.stack.length < s.cfg.cStack) (m : Mnemonic) (go : Result) :
    s.needRoom m go = go := by
  have hf : decide (s.cfg.cStack ≤ s.sp) = false := decide_eq_false (Nat.not_le.mpr h)
  rw [State.needRoom, hf, State.check_false]

theorem State.needReg_ok {s : State} {r : Nat} (h : r < s.cfg.cRegs) (m : Mnemonic) (go : Result) :
    s.needReg r m go = go := by
  simp [State.needReg, State.regExists, State.check, h]

/-! ### Stack operands -/

theorem exists_top {l : List Word} (h : 1 ≤ l.length) : ∃ below v, l = below ++ [v] := by
  have hne : l ≠ [] := by rintro rfl; simp at h
  exact ⟨l.dropLast, l.getLast hne, (List.dropLast_concat_getLast hne).symm⟩

theorem exists_top_two {l : List Word} (h : 2 ≤ l.length) : ∃ below y x, l = below ++ [y, x] := by
  obtain ⟨l', x, rfl⟩ := exists_top (l := l) (by omega)
  obtain ⟨below, y, rfl⟩ := exists_top (l := l') (by simpa using h)
  exact ⟨below, y, x, by simp⟩

/-- The top of a stack that ends in `v` is `v`. -/
theorem State.top_of_stack {s : State} {below : List Word} {v : Word} (h : s.stack = below ++ [v]) : s.top = v := by
  simp [State.top, State.slot, h]

theorem State.top_of_stack_two {s : State} {below : List Word} {y x : Word} (h : s.stack = below ++ [y, x]) :
    s.top = x := by
  apply State.top_of_stack (below := below ++ [y])
  simp [h]

theorem State.second_of_stack {s : State} {below : List Word} {y x : Word} (h : s.stack = below ++ [y, x]) :
    s.second = y := by
  simp [State.second, State.slot, h]

theorem State.dropped_of_stack {s : State} {below : List Word} {v : Word} (h : s.stack = below ++ [v]) :
    s.dropped 1 = { s with stack := below } := by
  simp [State.dropped, h]

theorem State.dropped_of_stack_two {s : State} {below : List Word} {y x : Word} (h : s.stack = below ++ [y, x]) :
    s.dropped 2 = { s with stack := below } := by
  simp [State.dropped, h]

/-- With a value on top, `withTop` gives it. -/
theorem State.withTop_of_stack {s : State} {below : List Word} {v : Word} (h : s.stack = below ++ [v]) (m : Mnemonic)
    (go : Word → Result) : s.withTop m go = go v := by
  rw [State.withTop, State.top_of_stack h, State.needDepth, State.check, if_neg]
  simp [h]

/-- With two values on top, `withTopTwo` gives them, second first. -/
theorem State.withTopTwo_of_stack {s : State} {below : List Word} {y x : Word} (h : s.stack = below ++ [y, x])
    (m : Mnemonic) (go : Word → Word → Result) : s.withTopTwo m go = go y x := by
  rw [State.withTopTwo, State.top_of_stack_two h, State.second_of_stack h, State.needDepth, State.check, if_neg]
  simp [h]

/-- Everything `withTop` can answer. -/
theorem State.withTop_cases {s t : State} {m : Mnemonic} {go : Word → Result} (h : s.withTop m go = .next t) :
    (s.stack.length < 1 ∧ t = s.raiseIn .stackUnderflow m) ∨
      ∃ below v, s.stack = below ++ [v] ∧ go v = .next t := by
  rcases State.needDepth_cases h with h' | ⟨hd, -⟩
  · exact .inl h'
  · obtain ⟨below, v, hs⟩ := exists_top hd
    exact .inr ⟨below, v, hs, by rwa [State.withTop_of_stack hs] at h⟩

/-- Everything `withTopTwo` can answer. -/
theorem State.withTopTwo_cases {s t : State} {m : Mnemonic} {go : Word → Word → Result}
    (h : s.withTopTwo m go = .next t) :
    (s.stack.length < 2 ∧ t = s.raiseIn .stackUnderflow m) ∨
      ∃ below y x, s.stack = below ++ [y, x] ∧ go y x = .next t := by
  rcases State.needDepth_cases h with h' | ⟨hd, -⟩
  · exact .inl h'
  · obtain ⟨below, y, x, hs⟩ := exists_top_two hd
    exact .inr ⟨below, y, x, hs, by rwa [State.withTopTwo_of_stack hs] at h⟩

/-! ### One inversion lemma per meaning -/

theorem execNop_cases {s t : State} (h : execNop s = .next t) : t = { s with ip := s.ip + 1 } :=
  (Host.Outcome.next.inj h).symm

theorem execPush_cases {s t : State} {v : Word} (h : execPush v s = .next t) :
    (s.cfg.cStack ≤ s.stack.length ∧ t = s.raiseIn .stackOverflow .push) ∨
      (s.stack.length < s.cfg.cStack ∧ t = { s with stack := s.stack ++ [v], ip := s.ip + 5 }) := by
  rcases State.needRoom_cases h with h' | ⟨hc, h⟩
  · exact .inl h'
  · exact .inr ⟨hc, (Host.Outcome.next.inj h).symm⟩

theorem execPop_cases {s t : State} (h : execPop s = .next t) :
    (s.stack.length < 1 ∧ t = s.raiseIn .stackUnderflow .pop) ∨
      ∃ below v, s.stack = below ++ [v] ∧ t = { s with stack := below, ip := s.ip + 1 } := by
  rcases State.withTop_cases h with h' | ⟨below, v, hs, h⟩
  · exact .inl h'
  · rw [State.dropped_of_stack hs] at h
    exact .inr ⟨below, v, hs, (Host.Outcome.next.inj h).symm⟩

theorem execLoad_cases {s t : State} {r : Nat} (h : execLoad r s = .next t) :
    (s.cfg.cRegs ≤ r ∧ t = s.raiseIn .invalidRegister .load) ∨
      (r < s.cfg.cRegs ∧ s.cfg.cStack ≤ s.stack.length ∧ t = s.raiseIn .stackOverflow .load) ∨
      (r < s.cfg.cRegs ∧ s.stack.length < s.cfg.cStack ∧
        t = { s with stack := s.stack ++ [s.readReg r], ip := s.ip + 2 }) := by
  rcases State.needReg_cases h with h' | ⟨hr, h⟩
  · exact .inl h'
  · rcases State.needRoom_cases h with h' | ⟨hc, h⟩
    · exact .inr (.inl ⟨hr, h'⟩)
    · exact .inr (.inr ⟨hr, hc, (Host.Outcome.next.inj h).symm⟩)

theorem execStore_cases {s t : State} {r : Nat} (h : execStore r s = .next t) :
    (s.cfg.cRegs ≤ r ∧ t = s.raiseIn .invalidRegister .store) ∨
      (r < s.cfg.cRegs ∧ s.stack.length < 1 ∧ t = s.raiseIn .stackUnderflow .store) ∨
      (r < s.cfg.cRegs ∧ ∃ below v, s.stack = below ++ [v] ∧
        t = { s with stack := below, registers := s.registers.set r v, ip := s.ip + 2 }) := by
  rcases State.needReg_cases h with h' | ⟨hr, h⟩
  · exact .inl h'
  · rcases State.withTop_cases h with h' | ⟨below, v, hs, h⟩
    · exact .inr (.inl ⟨hr, h'⟩)
    · rw [State.dropped_of_stack hs] at h
      exact .inr (.inr ⟨hr, below, v, hs, (Host.Outcome.next.inj h).symm⟩)

theorem execJmp_cases {s t : State} {a : Nat} (h : execJmp a s = .next t) :
    (s.cfg.cInst < a ∧ t = s.raiseIn .invalidJumpTarget .jmp) ∨ (a ≤ s.cfg.cInst ∧ t = { s with ip := a }) := by
  rcases State.check_cases h with ⟨hc, rfl⟩ | ⟨hc, h⟩
  · exact .inl ⟨by simpa [State.targetValid] using hc, rfl⟩
  · exact .inr ⟨by simpa [State.targetValid] using hc, (Host.Outcome.next.inj h).symm⟩

/-- Everything a conditional jump can do. -/
theorem State.branch_cases {s t : State} {m : Mnemonic} {taken : Word → Bool} {a : Nat}
    (h : s.branch m taken a = .next t) :
    (s.stack.length < 1 ∧ t = s.raiseIn .stackUnderflow m) ∨
      ∃ below v, s.stack = below ++ [v] ∧
        ((taken v = true ∧ s.cfg.cInst < a ∧ t = s.raiseIn .invalidJumpTarget m) ∨
          (taken v = true ∧ a ≤ s.cfg.cInst ∧ t = { s with stack := below, ip := a }) ∨
          (taken v = false ∧ t = { s with stack := below, ip := s.ip + m.length })) := by
  rcases State.withTop_cases h with h' | ⟨below, v, hs, h⟩
  · exact .inl h'
  · refine .inr ⟨below, v, hs, ?_⟩
    rw [State.dropped_of_stack hs] at h
    cases ht : taken v with
    | false =>
      simp only [ht] at h
      exact .inr (.inr ⟨rfl, (Host.Outcome.next.inj h).symm⟩)
    | true =>
      simp only [ht, if_true] at h
      rcases State.check_cases h with ⟨hc, rfl⟩ | ⟨hc, h⟩
      · exact .inl ⟨rfl, by simpa [State.targetValid] using hc, rfl⟩
      · exact .inr (.inl ⟨rfl, by simpa [State.targetValid] using hc, (Host.Outcome.next.inj h).symm⟩)

theorem State.arithResult_of_stack {s : State} {below : List Word} {y x : Word} (h : s.stack = below ++ [y, x])
    (m : Mnemonic) (z : Int) :
    s.arithResult m z = { s with stack := below ++ [wrap32 z], ip := s.ip + m.length } := by
  rw [State.arithResult, State.dropped_of_stack_two h]
  rfl

theorem execAdd_cases {s t : State} (h : execAdd s = .next t) :
    (s.stack.length < 2 ∧ t = s.raiseIn .stackUnderflow .add) ∨
      ∃ below y x, s.stack = below ++ [y, x] ∧
        t = { s with stack := below ++ [wrap32 (y.toInt + x.toInt)], ip := s.ip + 1 } := by
  rcases State.withTopTwo_cases h with h' | ⟨below, y, x, hs, h⟩
  · exact .inl h'
  · rw [State.arithResult_of_stack hs] at h
    exact .inr ⟨below, y, x, hs, (Host.Outcome.next.inj h).symm⟩

theorem execSub_cases {s t : State} (h : execSub s = .next t) :
    (s.stack.length < 2 ∧ t = s.raiseIn .stackUnderflow .sub) ∨
      ∃ below y x, s.stack = below ++ [y, x] ∧
        t = { s with stack := below ++ [wrap32 (y.toInt - x.toInt)], ip := s.ip + 1 } := by
  rcases State.withTopTwo_cases h with h' | ⟨below, y, x, hs, h⟩
  · exact .inl h'
  · rw [State.arithResult_of_stack hs] at h
    exact .inr ⟨below, y, x, hs, (Host.Outcome.next.inj h).symm⟩

theorem execMul_cases {s t : State} (h : execMul s = .next t) :
    (s.stack.length < 2 ∧ t = s.raiseIn .stackUnderflow .mul) ∨
      ∃ below y x, s.stack = below ++ [y, x] ∧
        t = { s with stack := below ++ [wrap32 (y.toInt * x.toInt)], ip := s.ip + 1 } := by
  rcases State.withTopTwo_cases h with h' | ⟨below, y, x, hs, h⟩
  · exact .inl h'
  · rw [State.arithResult_of_stack hs] at h
    exact .inr ⟨below, y, x, hs, (Host.Outcome.next.inj h).symm⟩

theorem execDiv_cases {s t : State} (h : execDiv s = .next t) :
    (s.stack.length < 2 ∧ t = s.raiseIn .stackUnderflow .div) ∨
      ∃ below y x, s.stack = below ++ [y, x] ∧
        ((x.toInt = 0 ∧ t = s.raiseIn .divisionByZero .div) ∨
          (x.toInt ≠ 0 ∧
            t = { s with stack := below ++ [wrap32 (tdiv y.toInt x.toInt)], ip := s.ip + 1 })) := by
  rcases State.withTopTwo_cases h with h' | ⟨below, y, x, hs, h⟩
  · exact .inl h'
  · refine .inr ⟨below, y, x, hs, ?_⟩
    rcases State.check_cases h with ⟨hc, rfl⟩ | ⟨hc, h⟩
    · exact .inl ⟨by simpa using hc, rfl⟩
    · rw [State.arithResult_of_stack hs] at h
      exact .inr ⟨by simpa using hc, (Host.Outcome.next.inj h).symm⟩

theorem execPrint_cases {s t : State} (h : execPrint s = .next t) :
    (s.stack.length < 1 ∧ t = s.raiseIn .stackUnderflow .print) ∨
      ∃ below v, s.stack = below ++ [v] ∧ t = { s with stack := below, out := s.out ++ [v], ip := s.ip + 1 } := by
  rcases State.withTop_cases h with h' | ⟨below, v, hs, h⟩
  · exact .inl h'
  · have hs' : (s.emit v).stack = below ++ [v] := hs
    rw [State.dropped_of_stack hs'] at h
    exact .inr ⟨below, v, hs, (Host.Outcome.next.inj h).symm⟩

theorem execStop_cases {s t : State} (h : execStop s = .next t) : t = { s with ip := s.ip + 1, runState := .halted } :=
  (Host.Outcome.next.inj h).symm

/-- Everything a meaning can do, for every instruction: a fault entry of one of the kinds a step can raise, or an
effect that leaves the configuration, the memory, the record and `started` alone. -/
theorem exec_cases {i : Instr} {s t : State} (h : exec i s = .next t) :
    (∃ k, k ≠ .none ∧ k ≠ .programTooLarge ∧ t = s.raiseIn k i.mnemonic) ∨
      ∃ st rs a o r, t = { s with stack := st, registers := rs, ip := a, out := o, runState := r } ∧
        (st.length ≤ s.stack.length ∨ st.length ≤ s.cfg.cStack) ∧ rs.length = s.registers.length ∧
        (a = s.ip + i.mnemonic.length ∨ a ≤ s.cfg.cInst) ∧ s.out <+: o ∧
        (r = s.runState ∨ (i = .stop ∧ r = .halted)) := by
  cases i with
  | nop =>
    obtain rfl := execNop_cases h
    exact .inr ⟨_, _, _, _, _, rfl, by simp, rfl, .inl rfl, by simp, .inl rfl⟩
  | push v =>
    rcases execPush_cases h with ⟨-, rfl⟩ | ⟨hc, rfl⟩
    · exact .inl ⟨_, by decide, by decide, rfl⟩
    · exact .inr ⟨_, _, _, _, _, rfl, by simp; omega, rfl, .inl rfl, by simp, .inl rfl⟩
  | pop =>
    rcases execPop_cases h with ⟨-, rfl⟩ | ⟨below, v, hs, rfl⟩
    · exact .inl ⟨_, by decide, by decide, rfl⟩
    · exact .inr ⟨_, _, _, _, _, rfl, by simp [hs], rfl, .inl rfl, by simp, .inl rfl⟩
  | load r =>
    rcases execLoad_cases h with ⟨-, rfl⟩ | ⟨-, -, rfl⟩ | ⟨-, hc, rfl⟩
    · exact .inl ⟨_, by decide, by decide, rfl⟩
    · exact .inl ⟨_, by decide, by decide, rfl⟩
    · exact .inr ⟨_, _, _, _, _, rfl, by simp; omega, rfl, .inl rfl, by simp, .inl rfl⟩
  | store r =>
    rcases execStore_cases h with ⟨-, rfl⟩ | ⟨-, -, rfl⟩ | ⟨-, below, v, hs, rfl⟩
    · exact .inl ⟨_, by decide, by decide, rfl⟩
    · exact .inl ⟨_, by decide, by decide, rfl⟩
    · exact .inr ⟨_, _, _, _, _, rfl, by simp [hs], by simp, .inl rfl, by simp, .inl rfl⟩
  | jmp a =>
    rcases execJmp_cases h with ⟨-, rfl⟩ | ⟨ha, rfl⟩
    · exact .inl ⟨_, by decide, by decide, rfl⟩
    · exact .inr ⟨_, _, _, _, _, rfl, by simp, rfl, .inr ha, by simp, .inl rfl⟩
  | jz a =>
    rcases State.branch_cases h with ⟨-, rfl⟩ | ⟨below, v, hs, ⟨-, -, rfl⟩ | ⟨-, ha, rfl⟩ | ⟨-, rfl⟩⟩
    · exact .inl ⟨_, by decide, by decide, rfl⟩
    · exact .inl ⟨_, by decide, by decide, rfl⟩
    · exact .inr ⟨_, _, _, _, _, rfl, by simp [hs], rfl, .inr ha, by simp, .inl rfl⟩
    · exact .inr ⟨_, _, _, _, _, rfl, by simp [hs], rfl, .inl rfl, by simp, .inl rfl⟩
  | jnz a =>
    rcases State.branch_cases h with ⟨-, rfl⟩ | ⟨below, v, hs, ⟨-, -, rfl⟩ | ⟨-, ha, rfl⟩ | ⟨-, rfl⟩⟩
    · exact .inl ⟨_, by decide, by decide, rfl⟩
    · exact .inl ⟨_, by decide, by decide, rfl⟩
    · exact .inr ⟨_, _, _, _, _, rfl, by simp [hs], rfl, .inr ha, by simp, .inl rfl⟩
    · exact .inr ⟨_, _, _, _, _, rfl, by simp [hs], rfl, .inl rfl, by simp, .inl rfl⟩
  | add =>
    rcases execAdd_cases h with ⟨-, rfl⟩ | ⟨below, y, x, hs, rfl⟩
    · exact .inl ⟨_, by decide, by decide, rfl⟩
    · exact .inr ⟨_, _, _, _, _, rfl, by simp [hs], rfl, .inl rfl, by simp, .inl rfl⟩
  | sub =>
    rcases execSub_cases h with ⟨-, rfl⟩ | ⟨below, y, x, hs, rfl⟩
    · exact .inl ⟨_, by decide, by decide, rfl⟩
    · exact .inr ⟨_, _, _, _, _, rfl, by simp [hs], rfl, .inl rfl, by simp, .inl rfl⟩
  | mul =>
    rcases execMul_cases h with ⟨-, rfl⟩ | ⟨below, y, x, hs, rfl⟩
    · exact .inl ⟨_, by decide, by decide, rfl⟩
    · exact .inr ⟨_, _, _, _, _, rfl, by simp [hs], rfl, .inl rfl, by simp, .inl rfl⟩
  | div =>
    rcases execDiv_cases h with ⟨-, rfl⟩ | ⟨below, y, x, hs, ⟨-, rfl⟩ | ⟨-, rfl⟩⟩
    · exact .inl ⟨_, by decide, by decide, rfl⟩
    · exact .inl ⟨_, by decide, by decide, rfl⟩
    · exact .inr ⟨_, _, _, _, _, rfl, by simp [hs], rfl, .inl rfl, by simp, .inl rfl⟩
  | print =>
    rcases execPrint_cases h with ⟨-, rfl⟩ | ⟨below, v, hs, rfl⟩
    · exact .inl ⟨_, by decide, by decide, rfl⟩
    · exact .inr ⟨_, _, _, _, _, rfl, by simp [hs], rfl, .inl rfl, by simp, .inl rfl⟩
  | stop =>
    obtain rfl := execStop_cases h
    exact .inr ⟨_, _, _, _, _, rfl, by simp, rfl, .inl rfl, by simp, .inr ⟨rfl, rfl⟩⟩

/-! ### Fetch and step -/

@[simp] theorem State.fetchWindow_length (s : State) : s.fetchWindow.length = min 5 (s.cfg.cInst - s.ip) := by
  simp [State.fetchWindow, maxLength]

/-- Below `C_INST` the decoder sees the byte at `ip` first (R57). -/
theorem State.fetchWindow_cons {s : State} (h : s.ip < s.cfg.cInst) :
    s.fetchWindow =
      s.imem.read s.ip :: Memory.readBytes s.imem (s.ip + 1) (min 4 (s.cfg.cInst - s.ip - 1)) := by
  have hm : min maxLength (s.cfg.cInst - s.ip) = min 4 (s.cfg.cInst - s.ip - 1) + 1 := by
    simp only [maxLength]
    omega
  rw [State.fetchWindow, hm, Memory.readBytes]

/-- At or past `C_INST` the decoder sees no byte (R57). -/
theorem State.fetchWindow_nil {s : State} (h : s.cfg.cInst ≤ s.ip) : s.fetchWindow = [] := by
  apply List.eq_nil_of_length_eq_zero
  simp
  omega

/-- An instruction the decoder reads lies wholly below `C_INST`. -/
theorem State.fetch_fits {s : State} {i : Instr} {rest : List Byte}
    (h : decode s.cfg.opmap s.fetchWindow = .instr i rest) : s.ip + i.mnemonic.length ≤ s.cfg.cInst := by
  obtain ⟨op, imm, m, hw, -, hlen, rfl, -⟩ := decode_cases h
  have := congrArg List.length hw
  simp only [State.fetchWindow_length, List.length_cons] at this
  simp only [Mnemonic.mnemonic_assemble, Mnemonic.length]
  omega

/-- A step that decodes an instruction runs it. -/
theorem step_of_instr {s : State} {i : Instr} {rest : List Byte} (he : s.Executing)
    (h : decode s.cfg.opmap s.fetchWindow = .instr i rest) : step s = exec i s := by
  rw [step, if_pos he, h]

/-- A step that decodes no instruction raises the decoder's fault. -/
theorem step_of_error {s : State} {e : DecodeError} (he : s.Executing)
    (h : decode s.cfg.opmap s.fetchWindow = .error e) : step s = .next (s.decodeFault e) := by
  rw [step, if_pos he, h]

/-- A core that is not executing does not step. -/
theorem step_of_idle {s : State} (h : ¬ s.Executing) : step s = .next s := by
  rw [step, if_neg h]

/-- Everything a step can do. -/
theorem step_cases {s t : State} (h : step s = .next t) :
    (¬ s.Executing ∧ t = s) ∨
      (s.Executing ∧ ∃ e, decode s.cfg.opmap s.fetchWindow = .error e ∧ t = s.decodeFault e) ∨
      (s.Executing ∧ ∃ i rest, decode s.cfg.opmap s.fetchWindow = .instr i rest ∧ exec i s = .next t) := by
  unfold step at h
  split at h
  · rename_i he
    split at h
    · exact .inr (.inr ⟨he, _, _, ‹_›, h⟩)
    · exact .inr (.inl ⟨he, _, ‹_›, (Host.Outcome.next.inj h).symm⟩)
  · exact .inl ⟨‹_›, (Host.Outcome.next.inj h).symm⟩

end Sys2Proof.Machine
end

