-- ==== Sys2Proof/Laws/PerInstr.lean ====
section
/-! SUPPORT. Laws/PerInstr.lean: the family EncodeShape, one lemma per constructor of Instr: the bytes of an
instruction are its opcode byte and exactly `width` immediate bytes (30_encoding.md R50, R52). -/

namespace Sys2Proof.Laws.EncodeShape

/-- The bytes of `i` are the byte OPMAP gives its operation, then as many immediate bytes as R52 says. -/
def Statement (i : Instr) : Prop :=
  ∀ om : OpMap, ∃ imm : List Byte, encode om i = om.byte i.mnemonic :: imm ∧ imm.length = i.mnemonic.width

/-- The shape holds of every instruction by the encoder's own form. -/
theorem of_encode (i : Instr) : Statement i := fun _ => ⟨_, rfl, toLittleEndian_length _ _⟩

theorem nop : Statement .nop := of_encode _
theorem push (imm32 : Word) : Statement (.push imm32) := of_encode _
theorem pop : Statement .pop := of_encode _
theorem load (reg8 : Nat) : Statement (.load reg8) := of_encode _
theorem store (reg8 : Nat) : Statement (.store reg8) := of_encode _
theorem jmp (target16 : Nat) : Statement (.jmp target16) := of_encode _
theorem jz (target16 : Nat) : Statement (.jz target16) := of_encode _
theorem jnz (target16 : Nat) : Statement (.jnz target16) := of_encode _
theorem add : Statement .add := of_encode _
theorem sub : Statement .sub := of_encode _
theorem mul : Statement .mul := of_encode _
theorem div : Statement .div := of_encode _
theorem print : Statement .print := of_encode _
theorem stop : Statement .stop := of_encode _

end Sys2Proof.Laws.EncodeShape
end

