-- ==== Sys2Proof/Tests/Slice0.lean ====
section
/-! SUPPORT. Tests/Slice0.lean: the model's own tests, expected results taken from 95_test_vectors.md or worked out
by hand from the rules, and a witness for the hypotheses of every statement that has some. -/

namespace Sys2Proof.Tests

open Sys2Proof.Machine

/-! ### Small states -/

/-- A small configuration: 4 stack slots, 16 registers (95_test_vectors.md section 2.3), 256 bytes. -/
def smallCfg : Config := { Config.reference with cStack := 4, cRegs := 16 }

/-- An executing state: `bytes` stand at `ip`, the stack is `stack`. -/
def sample (ip : Nat) (bytes : List Byte) (stack : List Word) : State :=
  { State.resetFor smallCfg with
    ip := ip, imem := Memory.writeBytes [] ip bytes, stack := stack, started := true }

/-- The state a result holds, if any. -/
def stateOf : Result → Option State
  | .next t => some t
  | _ => none

/-- What a result's state shows: `ip`, the stack, the output, the run state. -/
def view (r : Result) : Option (Nat × List Word × List Word × RunState) :=
  (stateOf r).map fun t => (t.ip, t.stack, t.out, t.runState)

/-- The fault record of a result's state. -/
def record (r : Result) : Option FaultRecord := (stateOf r).map (·.fault)

/-! ### Well-formedness: an ill-formed term for each check -/

theorem test_wf_load_refuses : (Instr.load 256).wf = false := by decide
theorem test_wf_store_refuses : (Instr.store 256).wf = false := by decide
theorem test_wf_jmp_refuses : (Instr.jmp 65536).wf = false := by decide
theorem test_wf_jz_refuses : (Instr.jz 65536).wf = false := by decide
theorem test_wf_jnz_refuses : (Instr.jnz 65536).wf = false := by decide
theorem test_wf_boundary : (Instr.load 255).wf = true ∧ (Instr.jmp 65535).wf = true := by decide
theorem test_cfg_reference : Config.reference.WF := by decide
theorem test_cfg_stack_refuses : ¬ { Config.reference with cStack := 1 }.WF := by decide
theorem test_cfg_regs_low_refuses : ¬ { Config.reference with cRegs := 0 }.WF := by decide
theorem test_cfg_regs_high_refuses : ¬ { Config.reference with cRegs := 257 }.WF := by decide
theorem test_cfg_inst_low_refuses : ¬ { Config.reference with cInst := 0 }.WF := by decide
theorem test_cfg_inst_high_refuses : ¬ { Config.reference with cInst := 65536 }.WF := by decide
theorem test_cfg_opmap_refuses :
    ¬ { Config.reference with opmap := { OpMap.reference with stop := 0x00 } }.WF := by decide

/-! ### Decoding: one word written out from R51, R53, R54, R63 for every constructor -/

theorem test_decode_nop : decodeTableWord 8 0x00 = some .nop := by decide
theorem test_decode_push : decodeTableWord 40 0x1234567801 = some (.push 0x12345678) := by decide
theorem test_decode_push_negative : decodeTableWord 40 0xFFFFFFFF01 = some (.push (-1)) := by decide
theorem test_decode_pop : decodeTableWord 8 0x02 = some .pop := by decide
theorem test_decode_load : decodeTableWord 16 0xFF03 = some (.load 255) := by decide
theorem test_decode_store : decodeTableWord 16 0x7F04 = some (.store 127) := by decide
theorem test_decode_jmp : decodeTableWord 24 0x7FFF05 = some (.jmp 32767) := by decide
theorem test_decode_jz : decodeTableWord 24 0x800006 = some (.jz 32768) := by decide
theorem test_decode_jnz : decodeTableWord 24 0x123407 = some (.jnz 4660) := by decide
theorem test_decode_add : decodeTableWord 8 0x08 = some .add := by decide
theorem test_decode_sub : decodeTableWord 8 0x09 = some .sub := by decide
theorem test_decode_mul : decodeTableWord 8 0x0A = some .mul := by decide
theorem test_decode_div : decodeTableWord 8 0x0B = some .div := by decide
theorem test_decode_print : decodeTableWord 8 0x0C = some .print := by decide
theorem test_decode_stop : decodeTableWord 8 0x0D = some .stop := by decide
theorem test_decode_short_word : decodeTableWord 8 0x01 = some (.push 0) := by decide
theorem test_decode_unknown : decode OpMap.reference [0xEE] = .error (.unknownOpcode 0xEE) := by decide
theorem test_decode_truncated : decode OpMap.reference [0x05, 0x07] = .error (.truncated 0x05) := by decide
theorem test_decode_empty : decode OpMap.reference [] = .error .noOpcode := by decide
theorem test_encode_push : encode OpMap.reference (.push 0x12345678) = [0x01, 0x78, 0x56, 0x34, 0x12] := by decide
theorem test_encode_jz : encode OpMap.reference (.jz 258) = [0x06, 0x02, 0x01] := by decide

/-! ### The instructions (95_test_vectors.md Part 2) -/

theorem test_nop : view (step (sample 4 [0x00] [8, 9])) = some (5, [8, 9], [], .running) := by decide
theorem test_push : view (step (sample 0 [0x01, 0x0A, 0, 0, 0] [])) = some (5, [10], [], .running) := by decide
theorem test_push_full :
    record (step (sample 0 [0x01, 0x01, 0, 0, 0] [1, 2, 3, 4])) = some ⟨.stackOverflow, 0x01, 0, 4⟩ := by decide
theorem test_pop : view (step (sample 9 [0x02] [5, 6, 7])) = some (10, [5, 6], [], .running) := by decide
theorem test_pop_empty : record (step (sample 9 [0x02] [])) = some ⟨.stackUnderflow, 0x02, 9, 0⟩ := by decide
theorem test_load_unwritten : view (step (sample 0 [0x03, 0x09] [])) = some (2, [0], [], .running) := by decide
theorem test_load_no_register :
    record (step (sample 0 [0x03, 0x10] [])) = some ⟨.invalidRegister, 0x03, 0, 0⟩ := by decide
theorem test_store :
    (stateOf (step (sample 0 [0x04, 0x00] [9, 42]))).map (fun t => (t.stack, t.readReg 0, t.ip)) =
      some ([9], 42, 2) := by decide
theorem test_store_no_register :
    record (step (sample 0 [0x04, 0x10] [])) = some ⟨.invalidRegister, 0x04, 0, 0⟩ := by decide
theorem test_jmp_to_end : view (step (sample 0 [0x05, 0x00, 0x01] [])) = some (256, [], [], .running) := by decide
theorem test_jmp_past_end :
    record (step (sample 0 [0x05, 0x01, 0x01] [])) = some ⟨.invalidJumpTarget, 0x05, 0, 0⟩ := by decide
theorem test_jz_taken_bad_target :
    record (step (sample 5 [0x06, 0x2C, 0x01] [0])) = some ⟨.invalidJumpTarget, 0x06, 5, 1⟩ := by decide
theorem test_jz_not_taken_bad_target :
    view (step (sample 5 [0x06, 0x2C, 0x01] [7])) = some (8, [], [], .running) := by decide
theorem test_jnz_taken : view (step (sample 22 [0x07, 0x07, 0x00] [3])) = some (7, [], [], .running) := by decide
theorem test_jnz_not_taken : view (step (sample 22 [0x07, 0x07, 0x00] [0])) = some (25, [], [], .running) := by decide
theorem test_add_wraps :
    view (step (sample 0 [0x08] [2147483647, 1])) = some (1, [-2147483648], [], .running) := by decide
theorem test_add_underflow : record (step (sample 3 [0x08] [1])) = some ⟨.stackUnderflow, 0x08, 3, 1⟩ := by decide
theorem test_sub_order : view (step (sample 0 [0x09] [100, 10, 3])) = some (1, [100, 7], [], .running) := by decide
theorem test_sub_wraps :
    view (step (sample 0 [0x09] [-2147483648, 1])) = some (1, [2147483647], [], .running) := by decide
theorem test_mul_wraps :
    view (step (sample 0 [0x0A] [46341, 46341])) = some (1, [-2147479015], [], .running) := by decide
theorem test_mul_sign : view (step (sample 0 [0x0A] [-7, 2])) = some (1, [-14], [], .running) := by decide
theorem test_div_truncates : view (step (sample 0 [0x0B] [-7, 2])) = some (1, [-3], [], .running) := by decide
theorem test_div_overflow :
    view (step (sample 0 [0x0B] [-2147483648, -1])) = some (1, [-2147483648], [], .running) := by decide
theorem test_div_by_zero : record (step (sample 10 [0x0B] [5, 0])) = some ⟨.divisionByZero, 0x0B, 10, 2⟩ := by decide
theorem test_print : view (step (sample 0 [0x0C] [1, 2])) = some (1, [1], [2], .running) := by decide
theorem test_print_empty : record (step (sample 0 [0x0C] [])) = some ⟨.stackUnderflow, 0x0C, 0, 0⟩ := by decide
theorem test_stop : view (step (sample 12 [0x0D] [1, 2, 3])) = some (13, [1, 2, 3], [], .halted) := by decide

/-! ### Fetch, start, load, text (95_test_vectors.md 2.1, 2.6, 2.7) -/

theorem test_fetch_at_end : record (step (sample 256 [] [7])) = some ⟨.truncatedProgram, 0x00, 256, 1⟩ := by decide
theorem test_fetch_push_last_fit : (stateOf (step (sample 251 [0x01] []))).map (·.ip) = some 256 := by decide
theorem test_fetch_push_truncated :
    record (step (sample 252 [0x01] [1, 2, 3, 4])) = some ⟨.truncatedProgram, 0x01, 252, 4⟩ := by decide
theorem test_fetch_unknown_last :
    record (step (sample 255 [0xEE] [])) = some ⟨.unknownOpcode, 0xEE, 255, 0⟩ := by decide
theorem test_no_step_before_start : (stateOf (step State.reset)).map (·.ip) = some 0 := by decide
theorem test_first_instruction_after_reset :
    view (step (State.reset.withFetchWord 40 0x0000000A01)) = some (5, [10], [], .running) := by decide
theorem test_jump_into_immediate :
    view (run 2 (State.init smallCfg [0x05, 0x04, 0x00, 0x01, 0x0D])) = some (5, [], [], .halted) := by decide
theorem test_render_negative : renderWord (-12) = [0x2D, 0x31, 0x32, 0x0A] := by decide
theorem test_render_zero : renderWord 0 = [0x30, 0x0A] := by decide
theorem test_render_min :
    renderWord (-2147483648) = [0x2D, 0x32, 0x31, 0x34, 0x37, 0x34, 0x38, 0x33, 0x36, 0x34, 0x38, 0x0A] := by decide

/-! ### What `status` shows (10_state.md R21, R23; 44_output_and_halt.md R121) -/

theorem test_status_after_stop :
    (stateOf (step (sample 12 [0x0D] [1, 2, 3]))).map hostStatus = some ⟨.halted, 13, 3, none⟩ := by decide
theorem test_status_faulted :
    (stateOf (step (sample 10 [0x0B] [5, 0]))).map hostStatus =
      some ⟨.faulted, 10, 2, some ⟨.divisionByZero, 0x0B, 10, 2⟩⟩ := by decide

/-! ### Witnesses: states and operands that meet a statement's hypotheses, clause by clause, at boundary values -/

theorem witness_DecodeEncode :
    OpMap.reference.Injective ∧ (Instr.store 255).wf = true ∧ (Instr.jnz 65535).wf = true := by
  decide

theorem witness_EncodeDecode : decode OpMap.reference [0x04, 0xFF, 0x00] = .instr (.store 255) [0x00] := by decide

theorem witness_InstructionLengths : decode OpMap.reference [0x07, 0xFF, 0xFF] = .instr (.jnz 65535) [] := by decide

theorem witness_StepRunsDecoded :
    (sample 253 [0x07, 0xFF, 0xFF] []).Executing ∧
      decode smallCfg.opmap (sample 253 [0x07, 0xFF, 0xFF] []).fetchWindow = .instr (.jnz 65535) [] := by decide

theorem witness_StepRunsEncoded :
    (sample 251 [0x01, 1, 2, 3, 4] []).Executing ∧ smallCfg.opmap.Injective ∧ (Instr.push 0x04030201).wf = true ∧
      251 + (encode smallCfg.opmap (.push 0x04030201)).length ≤ smallCfg.cInst ∧
      (sample 251 [0x01, 1, 2, 3, 4] []).imem.readBytes 251 5 = encode smallCfg.opmap (.push 0x04030201) := by decide

theorem witness_TruncatedOpcodeFetch :
    (sample 256 [] []).Executing ∧ smallCfg.cInst ≤ (sample 256 [] []).ip := by decide

theorem witness_TruncatedImmediateFetch :
    (sample 255 [0x03] []).Executing ∧ smallCfg.opmap.Injective ∧ (sample 255 [0x03] []).ip < smallCfg.cInst ∧
      (sample 255 [0x03] []).imem.read 255 = smallCfg.opmap.byte .load ∧
      smallCfg.cInst < (sample 255 [0x03] []).ip + 1 + Mnemonic.load.width := by decide

theorem witness_UnknownOpcodeStep :
    (sample 255 [0x0E] []).Executing ∧ (sample 255 [0x0E] []).ip < smallCfg.cInst ∧
      ∀ m, smallCfg.opmap.byte m ≠ (sample 255 [0x0E] []).imem.read 255 :=
  ⟨by decide, by decide, fun m => by cases m <;> decide⟩

/-- A faulting step from an executing state with no fault recorded; every kind a step can raise has a test above. -/
theorem witness_StepRaisesTheFirstFault :
    (sample 9 [0x02] []).Executing ∧ (sample 9 [0x02] []).fault.kind = .none ∧
      ∃ t, step (sample 9 [0x02] []) = .next t ∧ t.runState = .faulted :=
  ⟨by decide, rfl, _, rfl, rfl⟩

theorem witness_FaultEntryIsPrecise :
    (sample 10 [0x0B] [5, 0]).Executing ∧
      ∃ t, step (sample 10 [0x0B] [5, 0]) = .next t ∧ t.runState = .faulted :=
  ⟨by decide, _, rfl, rfl⟩

theorem witness_OnlyStopHalts :
    (sample 255 [0x0D] []).Executing ∧ ∃ t, step (sample 255 [0x0D] []) = .next t ∧ t.runState = .halted :=
  ⟨by decide, _, rfl, rfl⟩

theorem witness_TerminalIsFinal :
    ((sample 0 [] []).raise .stackUnderflow 0x02).Terminal ∧ (sample 0 [] []).halt.Terminal := by decide

theorem witness_NoStepBeforeStart : State.reset.started = false := rfl

theorem witness_PushEffect :
    (sample 0 [] [1, 2, 3]).stack.length < smallCfg.cStack ∧
      smallCfg.cStack ≤ (sample 0 [] [1, 2, 3, 4]).stack.length := by decide

theorem witness_PopEffect : (sample 0 [] [5]).stack = [] ++ [5] ∧ (sample 0 [] []).stack = [] := by decide

theorem witness_LoadEffect :
    15 < smallCfg.cRegs ∧ (sample 0 [] [1, 2, 3]).stack.length < smallCfg.cStack ∧
      smallCfg.cStack ≤ (sample 0 [] [1, 2, 3, 4]).stack.length := by decide

theorem witness_StoreEffect :
    15 < smallCfg.cRegs ∧ (sample 0 [] [7]).registers.length = smallCfg.cRegs ∧ (sample 0 [] [7]).stack = [] ++ [7] ∧
      (sample 0 [] []).registers.length = smallCfg.cRegs ∧ (sample 0 [] []).stack = [] := by decide

theorem witness_InvalidRegisterFault : (sample 0 [] []).cfg.cRegs ≤ 16 := by decide

theorem witness_JmpEffect : 256 ≤ (sample 0 [] []).cfg.cInst ∧ (sample 0 [] []).cfg.cInst < 257 := by decide

/-- The three clauses on a non-empty stack (0 and a valid target, not 0, 0 and an invalid target), and the empty one. -/
theorem witness_JzEffect :
    (sample 0 [] [0]).stack = [] ++ [0] ∧ 256 ≤ smallCfg.cInst ∧ (sample 0 [] [1]).stack = [] ++ [1] ∧ (1 : Word) ≠ 0 ∧
      smallCfg.cInst < 257 ∧ (sample 0 [] []).stack = [] := by decide

theorem witness_JnzEffect :
    (sample 0 [] [-1]).stack = [] ++ [-1] ∧ (-1 : Word) ≠ 0 ∧ 256 ≤ smallCfg.cInst ∧
      (sample 0 [] [0]).stack = [] ++ [0] ∧ smallCfg.cInst < 257 ∧ (sample 0 [] []).stack = [] := by decide

/-- Two elements, with a sum at the top of the range; and one element, for the underflow clause. -/
theorem witness_AddEffect :
    (sample 0 [] [2147483646, 1]).stack = [] ++ [2147483646, 1] ∧
      -2 ^ 31 ≤ (2147483646 : Word).toInt + (1 : Word).toInt ∧ (2147483646 : Word).toInt + (1 : Word).toInt < 2 ^ 31 ∧
      (sample 0 [] [1]).stack.length < 2 := by decide

theorem witness_SubEffect :
    (sample 0 [] [-2147483647, 1]).stack = [] ++ [-2147483647, 1] ∧
      -2 ^ 31 ≤ (-2147483647 : Word).toInt - (1 : Word).toInt ∧ (-2147483647 : Word).toInt - (1 : Word).toInt < 2 ^ 31 ∧
      (sample 0 [] [1]).stack.length < 2 := by decide

theorem witness_MulEffect :
    (sample 0 [] [46340, 46340]).stack = [] ++ [46340, 46340] ∧
      -2 ^ 31 ≤ (46340 : Word).toInt * (46340 : Word).toInt ∧ (46340 : Word).toInt * (46340 : Word).toInt < 2 ^ 31 ∧
      (sample 0 [] [1]).stack.length < 2 := by decide

/-- A divisor that is not 0 with the exact quotient in range, the one quotient out of range, a divisor 0, and one
element. -/
theorem witness_DivEffect :
    (sample 0 [] [-7, 2]).stack = [] ++ [-7, 2] ∧ (2 : Word) ≠ 0 ∧ ((-7 : Word).toInt ≠ -2 ^ 31 ∨ (2 : Word).toInt ≠ -1) ∧
      (sample 0 [] [-2147483648, -1]).stack = [] ++ [-2147483648, -1] ∧ (-1 : Word) ≠ 0 ∧
      (-2147483648 : Word).toInt = -2 ^ 31 ∧ (-1 : Word).toInt = -1 ∧
      (sample 0 [] [5, 0]).stack = [] ++ [5, 0] ∧ (sample 0 [] [1]).stack.length < 2 := by decide

theorem witness_PrintEffect : (sample 0 [] [7]).stack = [] ++ [7] ∧ (sample 0 [] []).stack = [] := by decide

theorem witness_Wrap32Congruent : (-1 : Word).toInt % 2 ^ 32 = (4294967295 : Int) % 2 ^ 32 := by decide

theorem witness_QuotientTruncates : (2 : Int) ≠ 0 ∧ ((-3 : Int) * 2).natAbs ≤ (-7 : Int).natAbs := by decide

/-- Hypotheses and right-hand sides of StackOverflowExactly, StackUnderflowExactly, DivisionByZeroExactly and
InvalidJumpTargetExactly. -/
theorem witness_FaultsExactly :
    (sample 0 [] [1, 2, 3, 4]).runState = .running ∧ (sample 0 [] [1, 2, 3, 4]).stack.length = smallCfg.cStack ∧
      15 < smallCfg.cRegs ∧ (sample 0 [] []).stack.length < 1 ∧ (sample 0 [] [1]).stack.length < 2 ∧
      (sample 0 [] [5, 0]).stack = [] ++ [5, 0] ∧ smallCfg.cInst < 257 ∧ (sample 0 [] [0]).stack = [] ++ [0] ∧
      (sample 0 [] [-1]).stack = [] ++ [-1] ∧ (-1 : Word) ≠ 0 := by decide

theorem witness_ExecFrame :
    (∃ t, exec (.store 1) (sample 0 [] [1, 2]) = .next t ∧ Instr.store 1 ≠ .store 0) ∧
      (∃ t, exec .add (sample 0 [] [1, 2, 3]) = .next t ∧ 0 < t.stack.length ∧ 0 + 1 < t.stack.length) ∧
      ∃ t, exec .print (sample 0 [] [1]) = .next t ∧ t.runState ≠ .faulted :=
  ⟨⟨_, rfl, by decide⟩, ⟨_, rfl, by decide, by decide⟩, ⟨_, rfl, by decide⟩⟩

theorem witness_StackPointerMoves :
    (sample 0 [] [1, 2, 3]).runState = .running ∧
      (∃ t, exec .pop (sample 0 [] []) = .next t ∧ t.runState = .faulted) ∧
      (∃ t, exec (.push 1) (sample 0 [] [1, 2, 3]) = .next t ∧ t.runState ≠ .faulted) ∧
      (∃ t, exec .div (sample 0 [] [7, 2]) = .next t ∧ t.runState ≠ .faulted) ∧
      ∃ t, exec (.jmp 256) (sample 0 [] []) = .next t ∧ t.runState ≠ .faulted :=
  ⟨rfl, ⟨_, rfl, rfl⟩, ⟨_, rfl, by decide⟩, ⟨_, rfl, by decide⟩, ⟨_, rfl, by decide⟩⟩

/-- The hypothesis of the statements about a run of `n` steps. -/
theorem witness_run : ∃ t, run 2 (State.init smallCfg [0x01, 7, 0, 0, 0, 0x0C]) = .next t ∧ t.out = [7] := ⟨_, rfl, rfl⟩

theorem witness_RegisterKeepsLatestStore :
    (∃ t, run 1 (sample 0 [0x04, 0x01] [7]) = .next t) ∧
      ∀ k u rest, k < 1 → run k (sample 0 [0x04, 0x01] [7]) = .next u →
        decode u.cfg.opmap u.fetchWindow ≠ .instr (.store 0) rest := by
  refine ⟨⟨_, rfl⟩, fun k u rest hk hu hd => ?_⟩
  obtain rfl : k = 0 := by omega
  injection hu with hu
  subst hu
  have : decode (sample 0 [0x04, 0x01] [7]).cfg.opmap (sample 0 [0x04, 0x01] [7]).fetchWindow =
      .instr (.store 1) [0, 0, 0] := by decide
  rw [this] at hd
  injection hd with hd
  injection hd with hd
  exact absurd hd (by decide)

theorem witness_StoreLoadRoundTrip :
    (sample 0 [] [1, 2, 3, 4]).stack = [1, 2, 3] ++ [4] ∧ 15 < smallCfg.cRegs ∧
      (sample 0 [] [1, 2, 3, 4]).registers.length = smallCfg.cRegs ∧
      (sample 0 [] [1, 2, 3, 4]).stack.length ≤ smallCfg.cStack := by decide

theorem witness_PushPopRoundTrip : (sample 0 [] [1, 2, 3]).stack.length < smallCfg.cStack := by decide

theorem witness_OpMapIndependence :
    (sample 0 [] []).runState = .running ∧ (∃ t, exec .pop (sample 0 [] []) = .next t ∧ t.runState = .faulted) ∧
      ∃ t, exec .nop (sample 0 [] []) = .next t ∧ t.runState ≠ .faulted :=
  ⟨rfl, ⟨_, rfl, rfl⟩, ⟨_, rfl, by decide⟩⟩

theorem witness_StepKeepsInvariant :
    (sample 0 [0x01, 7, 0, 0, 0] [1, 2, 3]).Inv ∧ ∃ t, step (sample 0 [0x01, 7, 0, 0, 0] [1, 2, 3]) = .next t :=
  ⟨by decide, _, rfl⟩

theorem witness_InitHasInvariant : smallCfg.WF ∧ (List.replicate 256 (1 : Byte)).length ≤ smallCfg.cInst :=
  ⟨by decide, by rw [List.length_replicate]; decide⟩

theorem witness_ResetForgets : (sample 0 [0x01] [1]).cfg = (sample 3 [] []).cfg := rfl

/-- A program of exactly `C_INST` bytes fits (LoadWritesProgram, LaunchGivesInit); one byte more does not. -/
theorem witness_load :
    (List.replicate 256 (1 : Byte)).length ≤ State.reset.cfg.cInst ∧ State.reset.started = false ∧
      State.reset.cfg.cInst < (List.replicate 257 (1 : Byte)).length :=
  ⟨by rw [List.length_replicate]; decide, rfl, by rw [List.length_replicate]; decide⟩

theorem witness_RunsOffTheEnd :
    (sample 254 [] [7]).Executing ∧ (sample 254 [] [7]).cfg.opmap.nop = 0 ∧ (sample 254 [] [7]).ip ≤ smallCfg.cInst ∧
      ∀ a, (sample 254 [] [7]).ip ≤ a → a < smallCfg.cInst → (sample 254 [] [7]).imem.read a = 0 :=
  ⟨by decide, by decide, by decide, fun _ _ _ => rfl⟩

theorem witness_StraightLineEnds : (sample 0 [] []).Executing := by decide

theorem witness_SelfLoopRunsForever :
    (sample 20 [0x05, 20, 0] []).Executing ∧
      decode smallCfg.opmap (sample 20 [0x05, 20, 0] []).fetchWindow = .instr (.jmp 20) [0, 0] := by decide

theorem witness_RunEndIsUnique : ∃ t, EndsIn (sample 0 [0x0D] []) t := ⟨_, 1, rfl, by decide⟩

theorem witness_StepKeepsObservation : ∃ t, step (sample 0 [0x0C] [7]) = .next t ∧ t.out = [7] := ⟨_, rfl, rfl⟩

end Sys2Proof.Tests
end

/-! PROOFS. The statements of 20_memory.md. MemRead as a sum and as a concatenation (R32), and
instruction memory along a run (R43, R44). -/

namespace Sys2Proof

/-- The second run of bytes weighs 256 to the length of the first. -/
theorem littleEndian_append (xs ys : List Byte) :
    littleEndian (xs ++ ys) = littleEndian xs + 256 ^ xs.length * littleEndian ys := by
  induction xs with
  | nil => simp [littleEndian]
  | cons b xs ih =>
    simp only [List.cons_append, littleEndian, List.length_cons, ih]
    ring

/-- A byte put below a number in its value stands below it in its bits. -/
theorem ofNat_byte_below (w x : Nat) (b : Byte) :
    BitVec.ofNat (w + 8) (b.toNat + 256 * x) = BitVec.ofNat w x ++ b := by
  apply BitVec.eq_of_toNat_eq
  have hb : b.toNat < 2 ^ 8 := b.isLt
  have hpow : 2 ^ (w + 8) = 256 * 2 ^ w := by rw [Nat.pow_add, Nat.mul_comm]
  have hquot : (b.toNat + 256 * x) / 256 = x := by omega
  have hshift : (x % 2 ^ w) <<< 8 = 256 * (x % 2 ^ w) := by rw [Nat.shiftLeft_eq, Nat.mul_comm]
  rw [BitVec.toNat_append, ← Nat.shiftLeft_add_eq_or_of_lt hb, BitVec.toNat_ofNat, BitVec.toNat_ofNat, hshift, hpow,
    Nat.mod_mul, hquot]
  omega

end Sys2Proof

namespace Sys2Proof.Machine

/-! ### MemRead (R32) -/

/-- Reading one byte more at the low end. -/
theorem Memory.readLE_succ (m : Memory) (addr n : Nat) :
    m.readLE addr (n + 1) = (m.read addr).toNat + 256 * m.readLE (addr + 1) n := rfl

/-- Reading one byte more at the high end. -/
theorem Memory.readLE_succ_last (m : Memory) (addr n : Nat) :
    m.readLE addr (n + 1) = m.readLE addr n + (m.read (addr + n)).toNat * 256 ^ n := by
  rw [Memory.readLE, Memory.readBytes_add, littleEndian_append, Memory.readBytes_length, Nat.mul_comm]
  rfl

/-- MemRead is the sum of R32. -/
theorem Memory.readLE_eq_sum (m : Memory) (addr n : Nat) :
    m.readLE addr n = ((List.range n).map fun k => (m.read (addr + k)).toNat * 256 ^ k).sum := by
  induction n with
  | zero => rfl
  | succ n ih => simp [Memory.readLE_succ_last, ih, List.range_succ]

/-- Read into a word, the byte at the lowest address stands below the bytes after it. -/
theorem Memory.ofNat_readLE_succ (m : Memory) (w addr n : Nat) :
    BitVec.ofNat (w + 8) (m.readLE addr (n + 1)) = BitVec.ofNat w (m.readLE (addr + 1) n) ++ m.read addr := by
  rw [Memory.readLE_succ, ofNat_byte_below]

/-- One byte read is that byte. -/
theorem Memory.ofNat_readLE_one (m : Memory) (addr : Nat) : BitVec.ofNat 8 (m.readLE addr 1) = m.read addr := by
  simp [Memory.readLE_eq_sum]

/-- Four bytes read are their concatenation, the byte at the highest address most significant. -/
theorem Memory.ofNat_readLE_four (m : Memory) (addr : Nat) :
    BitVec.ofNat 32 (m.readLE addr 4) =
      m.read (addr + 3) ++ m.read (addr + 2) ++ m.read (addr + 1) ++ m.read addr := by
  rw [Memory.ofNat_readLE_succ m 24, Memory.ofNat_readLE_succ m 16, Memory.ofNat_readLE_succ m 8,
    Memory.ofNat_readLE_one]

/-! ### What no step writes (R43, R44) -/

@[simp] theorem State.decodeFault_cfg (s : State) (e : DecodeError) : (s.decodeFault e).cfg = s.cfg := by
  cases e <;> rfl

@[simp] theorem State.decodeFault_imem (s : State) (e : DecodeError) : (s.decodeFault e).imem = s.imem := by
  cases e <;> rfl

/-- No instruction changes the configuration or instruction memory, faulting or not. -/
theorem exec_keeps_cfg_imem {i : Instr} {s t : State} (h : exec i s = .next t) :
    t.cfg = s.cfg ∧ t.imem = s.imem := by
  rcases exec_cases h with ⟨k, -, -, rfl⟩ | ⟨st, rs, a, o, r, rfl, -⟩
  · exact ⟨rfl, rfl⟩
  · exact ⟨rfl, rfl⟩

/-- No step changes the configuration or instruction memory. -/
theorem step_keeps_cfg_imem {s t : State} (h : step s = .next t) : t.cfg = s.cfg ∧ t.imem = s.imem := by
  rcases step_cases h with ⟨-, rfl⟩ | ⟨-, e, -, rfl⟩ | ⟨-, i, rest, -, hexec⟩
  · exact ⟨rfl, rfl⟩
  · exact ⟨s.decodeFault_cfg e, s.decodeFault_imem e⟩
  · exact exec_keeps_cfg_imem hexec

/-- A run that goes on takes a step and runs on from there. -/
theorem run_succ_cases {n : Nat} {s t : State} (h : run (n + 1) s = .next t) :
    ∃ u, step s = .next u ∧ run n u = .next t := by
  rw [run] at h
  split at h
  · exact ⟨_, ‹_›, h⟩
  · cases h
  · cases h

/-- What every step keeps, every run keeps. -/
theorem run_keeps {P : State → Prop} (hstep : ∀ {u v : State}, P u → step u = .next v → P v)
    {n : Nat} {s t : State} (hs : P s) (h : run n s = .next t) : P t := by
  induction n generalizing s with
  | zero =>
    obtain rfl := Host.Outcome.next.inj h
    exact hs
  | succ n ih =>
    obtain ⟨u, hu, hrun⟩ := run_succ_cases h
    exact ih (hstep hs hu) hrun

/-- No run changes the configuration or instruction memory. -/
theorem run_keeps_cfg_imem {n : Nat} {s t : State} (h : run n s = .next t) : t.cfg = s.cfg ∧ t.imem = s.imem := by
  refine run_keeps (P := fun u => u.cfg = s.cfg ∧ u.imem = s.imem) ?_ ⟨rfl, rfl⟩ h
  intro u v ⟨hcfg, himem⟩ huv
  obtain ⟨hcfg', himem'⟩ := step_keeps_cfg_imem huv
  exact ⟨hcfg'.trans hcfg, himem'.trans himem⟩

/-- What the decoder sees depends on the configuration, memory and `ip` alone (R38). -/
theorem State.fetchWindow_congr {s t : State} (hcfg : t.cfg = s.cfg) (himem : t.imem = s.imem) (hip : t.ip = s.ip) :
    t.fetchWindow = s.fetchWindow := by
  rw [State.fetchWindow, State.fetchWindow, hcfg, himem, hip]

/-! ### The statements -/

/-- Settles O5: the sum by adding bytes at the high end, the concatenation by splitting bytes off at the low end. -/
theorem memReadLittleEndian : Obligations.MemReadLittleEndian := fun m addr =>
  ⟨m.readLE_eq_sum addr, m.ofNat_readLE_four addr⟩

/-- Settles O40: every step keeps memory and the configuration, so a fetch at `ip` sees what the start state held. -/
theorem memoryNeverWritten : Obligations.MemoryNeverWritten := by
  refine ⟨fun i s t h => (exec_keeps_cfg_imem h).2, fun n s t h => ?_⟩
  obtain ⟨hcfg, himem⟩ := run_keeps_cfg_imem h
  exact ⟨himem, State.fetchWindow_congr hcfg himem rfl⟩

end Sys2Proof.Machine

/-! PROOFS. The statements of 30_encoding.md. Instruction lengths: what the encoder makes and what the decoder takes
(R52). -/

namespace Sys2Proof

/-- The decoder takes the decoded instruction's length and leaves the rest. -/
theorem length_eq_of_decode {om : OpMap} {bs rest : List Byte} {i : Instr} (h : decode om bs = .instr i rest) :
    bs.length = i.mnemonic.length + rest.length := by
  obtain ⟨op, imm, m, rfl, -, hwidth, rfl, rfl⟩ := decode_cases h
  simp only [Mnemonic.mnemonic_assemble, Mnemonic.length, List.length_cons, List.length_drop]
  omega

end Sys2Proof

namespace Sys2Proof.Machine

/-- Settles O4: the width table by its rows, what the encoder makes by `encode_length`, what the decoder takes by the
inversion of `decode`. -/
theorem instructionLengths : Obligations.InstructionLengths := by
  refine ⟨?widths, encode_length, fun om bs rest i h => length_eq_of_decode h⟩
  case widths => decide

end Sys2Proof.Machine

/-! PROOFS. The statements of 70_reset_and_hazards.md. What `reset` forgets (R161). -/

namespace Sys2Proof.Machine

/-- Memory that lists no address reads zero everywhere (R17). -/
@[simp] theorem Memory.read_nil (a : Nat) : Memory.read [] a = 0 := rfl

/-- After reset, instruction memory reads zero everywhere: the program is gone too (R161). -/
theorem hostReset_imem_read (s : State) (a : Nat) : (hostReset s).imem.read a = 0 := by
  rw [hostReset_imem, Memory.read_nil]

/-- Reset sees the configuration and nothing else of the state (R161). -/
theorem hostReset_congr {s s' : State} (hcfg : s.cfg = s'.cfg) : hostReset s = hostReset s' := by
  rw [hostReset, hostReset, hcfg]

/-- Settles O50: the reset state is a function of the configuration, and it lists no byte of memory. -/
theorem resetForgets : Obligations.ResetForgets := fun s _ hcfg =>
  ⟨hostReset_congr hcfg, hostReset_imem_read s⟩

end Sys2Proof.Machine

/-! PROOFS. The round trip of 30_encoding.md: decode after encode and encode after decode (R50 to R54). -/

namespace Sys2Proof

/-! ### Operands and their raw bytes -/

/-- The raw operand of a well-formed instruction fits its immediate bytes (R52, R53). -/
theorem Instr.rawOperand_lt {i : Instr} (hwf : i.wf = true) : i.rawOperand < 256 ^ i.mnemonic.width := by
  cases i with
  | push v => exact v.isLt
  | load r | store r | jmp a | jz a | jnz a => exact of_decide_eq_true hwf
  | nop | pop | add | sub | mul | div | print | stop => decide

/-- An instruction is what its operation makes of its raw operand (R53). -/
theorem Instr.assemble_rawOperand (i : Instr) : i.mnemonic.assemble i.rawOperand = i := by
  cases i with
  | push v => simp [Instr.mnemonic, Instr.rawOperand, Mnemonic.assemble]
  | _ => rfl

/-- The raw operand of what an operation makes of a number that fits is that number (R53). -/
theorem Mnemonic.rawOperand_assemble {m : Mnemonic} {raw : Nat} (hraw : raw < 256 ^ m.width) :
    (m.assemble raw).rawOperand = raw := by
  cases m with
  | push => exact (BitVec.toNat_ofNat raw 32).trans (Nat.mod_eq_of_lt hraw)
  | load | store | jmp | jz | jnz => rfl
  | nop | pop | add | sub | mul | div | print | stop => exact (Nat.lt_one_iff.mp hraw).symm

/-- What an operation makes of a number that fits is well-formed (R53). -/
theorem Mnemonic.wf_assemble {m : Mnemonic} {raw : Nat} (hraw : raw < 256 ^ m.width) : (m.assemble raw).wf = true := by
  cases m with
  | load | store | jmp | jz | jnz => exact decide_eq_true hraw
  | _ => rfl

/-! ### The decoder -/

/-- The decoder on an opcode byte that selects `m` and has all its immediate after it. -/
theorem decode_append {om : OpMap} {op : Byte} {m : Mnemonic} (hop : om.lookup op = some m) {imm : List Byte}
    (himm : imm.length = m.width) (rest : List Byte) :
    decode om (op :: (imm ++ rest)) = .instr (m.assemble (littleEndian imm)) rest := by
  simp [decode, hop, ← himm]

/-- Decoding the bytes of a well-formed instruction gives it back and leaves what follows. -/
theorem decode_encode_append {om : OpMap} (hom : om.Injective) {i : Instr} (hwf : i.wf = true) (rest : List Byte) :
    decode om (encode om i ++ rest) = .instr i rest := by
  have hlen := toLittleEndian_length i.mnemonic.width i.rawOperand
  rw [encode, List.cons_append, decode_append (OpMap.lookup_byte hom i.mnemonic) hlen, littleEndian_toLittleEndian,
    Nat.mod_eq_of_lt (Instr.rawOperand_lt hwf), Instr.assemble_rawOperand]

/-- What the decoder reads off an opcode byte and its immediate encodes as those bytes. -/
theorem encode_assemble {om : OpMap} {op : Byte} {m : Mnemonic} (hop : om.lookup op = some m) {imm : List Byte}
    (himm : imm.length = m.width) : encode om (m.assemble (littleEndian imm)) = op :: imm := by
  have hraw : littleEndian imm < 256 ^ m.width := himm ▸ littleEndian_lt imm
  rw [encode, Mnemonic.mnemonic_assemble, Mnemonic.rawOperand_assemble hraw, OpMap.byte_of_lookup hop, ← himm,
    toLittleEndian_littleEndian]

end Sys2Proof

namespace Sys2Proof.Machine

/-- Settles O2: the opcode byte selects the operation, and the immediate reads back as the raw operand. -/
theorem decodeEncode : Obligations.DecodeEncode := fun _ _ rest hom hwf => decode_encode_append hom hwf rest

/-- Settles O3: the bytes are an opcode byte, the immediate taken and the rest dropped, by the inversion of `decode`. -/
theorem encodeDecode : Obligations.EncodeDecode := by
  intro om bs rest i h
  obtain ⟨op, imm, m, rfl, hop, hwidth, rfl, rfl⟩ := decode_cases h
  have himm : (imm.take m.width).length = m.width := by simp [hwidth]
  have hraw := himm ▸ littleEndian_lt (imm.take m.width)
  refine ⟨Mnemonic.wf_assemble hraw, ?bytes⟩
  rw [encode_assemble hop himm, List.cons_append, List.take_append_drop]

end Sys2Proof.Machine

/-! PROOFS. What `exec` does, in one equation: the first fault of R138's order is raised, and where there is none the
instruction has its effect. -/

namespace Sys2Proof.Machine

/-! ### Where a chain of preconditions ends -/

/-- Where the preconditions of `m` end: the entry of fault `k`, or the state `t` where `k` is no fault. -/
def State.settle (s : State) (k : FaultKind) (m : Mnemonic) (t : State) : State :=
  if k = .none then t else s.raiseIn k m

@[simp] theorem State.settle_none (s : State) (m : Mnemonic) (t : State) : s.settle .none m t = t := rfl

theorem State.settle_of_fault (s : State) {k : FaultKind} (hk : k ≠ .none) (m : Mnemonic) (t : State) :
    s.settle k m t = s.raiseIn k m := if_neg hk

/-- A check before a chain of preconditions puts its own fault first. -/
theorem State.check_settle (s : State) (c : Bool) {k : FaultKind} (hk : k ≠ .none) (f : FaultKind) (m : Mnemonic)
    (t : State) : s.check c k m (.next (s.settle f m t)) = .next (s.settle (if c then k else f) m t) := by
  cases c with
  | false => rfl
  | true => simp [State.settle_of_fault s hk]

theorem State.needRoom_settle (s : State) (f : FaultKind) (m : Mnemonic) (t : State) :
    s.needRoom m (.next (s.settle f m t)) =
      .next (s.settle (if s.cfg.cStack ≤ s.sp then .stackOverflow else f) m t) := by
  simp [State.needRoom, State.check_settle]

theorem State.needDepth_settle (s : State) (n : Nat) (f : FaultKind) (m : Mnemonic) (t : State) :
    s.needDepth n m (.next (s.settle f m t)) =
      .next (s.settle (if s.sp < n then .stackUnderflow else f) m t) := by
  simp [State.needDepth, State.check_settle]

theorem State.needReg_settle (s : State) (r : Nat) (f : FaultKind) (m : Mnemonic) (t : State) :
    s.needReg r m (.next (s.settle f m t)) =
      .next (s.settle (if s.cfg.cRegs ≤ r then .invalidRegister else f) m t) := by
  simp [State.needReg, State.regExists, State.check_settle]

theorem State.checkTarget_settle (s : State) (a : Nat) (f : FaultKind) (m : Mnemonic) (t : State) :
    s.check (!s.targetValid a) .invalidJumpTarget m (.next (s.settle f m t)) =
      .next (s.settle (if s.cfg.cInst < a then .invalidJumpTarget else f) m t) := by
  simp [State.targetValid, State.check_settle]

/-! ### The conditions on a popped value -/

theorem toInt_eq_zero_iff (v : Word) : v.toInt = 0 ↔ v = 0 := by
  rw [← BitVec.toInt_inj]
  rfl

theorem condZero_eq (v : Word) : condZero v = decide (v = 0) := by
  simp only [condZero, toInt_eq_zero_iff]

theorem condNonZero_eq (v : Word) : condNonZero v = decide (v ≠ 0) := by
  rw [condNonZero, condZero_eq, decide_not]

theorem State.divisor_settle (s : State) (f : FaultKind) (m : Mnemonic) (t : State) :
    s.check (decide (s.top.toInt = 0)) .divisionByZero m (.next (s.settle f m t)) =
      .next (s.settle (if s.top = 0 then .divisionByZero else f) m t) := by
  simp only [toInt_eq_zero_iff, State.check_settle s _ (k := .divisionByZero) (by decide), decide_eq_true_eq]

/-! ### The effect of an instruction that meets no fault -/

/-- What an instruction does where none of its preconditions fails (the effects of R70 to R121). It is tied to the
model by `exec_eq`. -/
def effect (i : Instr) (s : State) : State :=
  match i with
  | .nop => s.advance .nop
  | .push v => (s.pushed v).advance .push
  | .pop => (s.dropped 1).advance .pop
  | .load r => (s.pushed (s.readReg r)).advance .load
  | .store r => ((s.dropped 1).writeReg r s.top).advance .store
  | .jmp a => s.setIp a
  | .jz a => (s.dropped 1).setIp (if s.top = 0 then a else s.nextIp .jz)
  | .jnz a => (s.dropped 1).setIp (if s.top ≠ 0 then a else s.nextIp .jnz)
  | .add => s.arithResult .add (s.second.toInt + s.top.toInt)
  | .sub => s.arithResult .sub (s.second.toInt - s.top.toInt)
  | .mul => s.arithResult .mul (s.second.toInt * s.top.toInt)
  | .div => s.arithResult .div (tdiv s.second.toInt s.top.toInt)
  | .print => ((s.emit s.top).dropped 1).advance .print
  | .stop => (s.advance .stop).halt

/-- A conditional jump checks its target exactly when it jumps (R93, D8). -/
theorem State.branch_eq (s : State) (m : Mnemonic) {taken : Word → Bool} {p : Prop} [Decidable p]
    (htaken : taken s.top = decide p) (a : Nat) :
    s.branch m taken a =
      .next (s.settle (if s.sp < 1 then .stackUnderflow else if p ∧ s.cfg.cInst < a then .invalidJumpTarget else .none)
        m ((s.dropped 1).setIp (if p then a else s.nextIp m))) := by
  rw [State.branch, State.withTop, htaken]
  by_cases hp : p
  · have htarget := s.checkTarget_settle a .none m ((s.dropped 1).setIp a)
    simpa [hp, State.needDepth_settle] using congrArg (s.needDepth 1 m) htarget
  · have hnext : (s.dropped 1).advance m = (s.dropped 1).setIp (s.nextIp m) := rfl
    simpa [hp, hnext] using s.needDepth_settle 1 .none m ((s.dropped 1).setIp (s.nextIp m))

/-- Every instruction in every state: it raises its first fault of R138's order, and where there is none it has its
effect. -/
theorem exec_eq (i : Instr) (s : State) :
    exec i s = .next (s.settle (execFault i s) i.mnemonic (effect i s)) := by
  cases i with
  | nop => rfl
  | stop => rfl
  | push v => exact s.needRoom_settle .none .push _
  | pop => exact s.needDepth_settle 1 .none .pop _
  | load r =>
    exact (congrArg (s.needReg r .load) (s.needRoom_settle .none .load _)).trans (s.needReg_settle r _ .load _)
  | store r =>
    exact (congrArg (s.needReg r .store) (s.needDepth_settle 1 .none .store _)).trans (s.needReg_settle r _ .store _)
  | jmp a => exact s.checkTarget_settle a .none .jmp _
  | jz a => exact s.branch_eq .jz (condZero_eq s.top) a
  | jnz a => exact s.branch_eq .jnz (condNonZero_eq s.top) a
  | add => exact s.needDepth_settle 2 .none .add _
  | sub => exact s.needDepth_settle 2 .none .sub _
  | mul => exact s.needDepth_settle 2 .none .mul _
  | div =>
    exact (congrArg (s.needDepth 2 .div) (s.divisor_settle .none .div _)).trans (s.needDepth_settle 2 _ .div _)
  | print => exact s.needDepth_settle 1 .none .print _

end Sys2Proof.Machine

/-! ### What `exec_eq` says of a fault and of an effect -/

namespace Sys2Proof.Machine

theorem exec_of_fault {i : Instr} {s : State} (h : execFault i s ≠ .none) :
    exec i s = .next (s.raiseIn (execFault i s) i.mnemonic) := by
  rw [exec_eq, State.settle_of_fault s h]

theorem exec_of_no_fault {i : Instr} {s : State} (h : execFault i s = .none) : exec i s = .next (effect i s) := by
  rw [exec_eq, h, State.settle_none]

/-- Everything an instruction can do, with its fault and its effect named. -/
theorem exec_settles {i : Instr} {s t : State} (h : exec i s = .next t) :
    (execFault i s ≠ .none ∧ t = s.raiseIn (execFault i s) i.mnemonic) ∨
      (execFault i s = .none ∧ t = effect i s) := by
  by_cases hf : execFault i s = .none
  · exact .inr ⟨hf, Host.Outcome.next.inj (h.symm.trans (exec_of_no_fault hf))⟩
  · exact .inl ⟨hf, Host.Outcome.next.inj (h.symm.trans (exec_of_fault hf))⟩

/-- ProgramTooLarge is the loader's fault, no instruction's (R139). -/
theorem execFault_ne_programTooLarge (i : Instr) (s : State) : execFault i s ≠ .programTooLarge := by
  cases i <;> simp [execFault, ite_eq_iff]

/-! ### The frame of an effect -/

@[simp] theorem effect_cfg (i : Instr) (s : State) : (effect i s).cfg = s.cfg := by cases i <;> rfl

@[simp] theorem effect_imem (i : Instr) (s : State) : (effect i s).imem = s.imem := by cases i <;> rfl

@[simp] theorem effect_fault (i : Instr) (s : State) : (effect i s).fault = s.fault := by cases i <;> rfl

@[simp] theorem effect_started (i : Instr) (s : State) : (effect i s).started = s.started := by cases i <;> rfl

/-- STOP alone changes the run state (R121). -/
theorem effect_runState (i : Instr) (s : State) :
    (effect i s).runState = if i = .stop then .halted else s.runState := by
  cases i <;> rfl

/-- No effect enters Faulted. -/
theorem effect_not_faulted {s : State} (hs : s.runState = .running) (i : Instr) :
    (effect i s).runState ≠ .faulted := by
  rw [effect_runState, hs]
  split <;> decide

/-- PRINT alone changes the output (R120). -/
theorem effect_out {i : Instr} (hi : i ≠ .print) (s : State) : (effect i s).out = s.out := by
  cases i with
  | print => exact absurd rfl hi
  | _ => rfl

@[simp] theorem effect_registers_length (i : Instr) (s : State) :
    (effect i s).registers.length = s.registers.length := by
  cases i with
  | store r => exact List.length_set ..
  | _ => rfl

/-- A write to a register leaves every other one alone (R15). -/
theorem State.readReg_writeReg_other (s : State) {q r : Nat} (hq : q ≠ r) (v : Word) :
    (s.writeReg r v).readReg q = s.readReg q := by
  simp [State.readReg, List.getElem?_set_ne hq.symm]

/-- A register that exists reads as it was written (R15). -/
theorem State.readReg_writeReg_same (s : State) {r : Nat} (hr : r < s.registers.length) (v : Word) :
    (s.writeReg r v).readReg r = v := by
  simp [State.readReg, hr]

/-- STORE alone changes a register, the one it names (R81). -/
theorem effect_readReg {i : Instr} {r : Nat} (hi : i ≠ .store r) (s : State) :
    (effect i s).readReg r = s.readReg r := by
  cases i with
  | store q => exact s.readReg_writeReg_other (fun hrq => hi (by rw [hrq])) s.top
  | _ => rfl

end Sys2Proof.Machine

/-! PROOFS. The statements of 60_exceptions.md about one instruction: each fault kind with exactly the instructions that
raise it (R132 to R137). -/

namespace Sys2Proof.Machine

theorem faults_iff_eq (s : State) (k : FaultKind) (m : Mnemonic) (o : Result) :
    Faults s k m o ↔ o = .next (s.raiseIn k m) := Iff.rfl

/-- An instruction whose first fault is `k` enters it. -/
theorem faults_of_execFault {i : Instr} {s : State} {k : FaultKind} (hk : k ≠ .none) (h : execFault i s = k) :
    Faults s k i.mnemonic (exec i s) := by
  rw [faults_iff_eq, ← h, exec_of_fault (h ▸ hk)]

/-- From Running, an instruction enters the fault `k` exactly if `k` is its first fault (R138). -/
theorem faults_iff {i : Instr} {s : State} {k : FaultKind} (hs : s.runState = .running) (hk : k ≠ .none) :
    Faults s k i.mnemonic (exec i s) ↔ execFault i s = k := by
  refine ⟨fun h => ?_, faults_of_execFault hk⟩
  rcases exec_settles ((faults_iff_eq ..).mp h) with ⟨-, heq⟩ | ⟨-, heq⟩
  · exact (congrArg (fun t => t.fault.kind) heq).symm
  · exact absurd (congrArg State.runState heq).symm (effect_not_faulted hs i)

end Sys2Proof.Machine

/-! PROOFS. The statements of 30_encoding.md section 5 and 60_exceptions.md sections 2 and 3: what a fetch gives the
decoder, and which fault a step raises (R57, R58, R60, R138 to R141). -/

namespace Sys2Proof.Machine

/-! ### The fetch (R57, R58) -/

/-- The opcode byte a step fetches, 0 if it fetches none (R19, R57). It is tied to the model by `fetch_cases`. -/
def State.fetchedOpcode (s : State) : Byte := if s.cfg.cInst ≤ s.ip then 0 else s.imem.read s.ip

theorem State.fetchedOpcode_of_lt {s : State} (h : s.ip < s.cfg.cInst) : s.fetchedOpcode = s.imem.read s.ip :=
  if_neg (Nat.not_le.mpr h)

/-- No instruction is longer than the fetch window (R50). -/
theorem mnemonic_length_le_maxLength (m : Mnemonic) : m.length ≤ maxLength := by cases m <;> decide

/-- Bytes that fit below `C_INST` and the window's length are the first the decoder sees. -/
theorem State.fetchWindow_eq_append {s : State} {n : Nat} (hn : n ≤ maxLength) (hfit : s.ip + n ≤ s.cfg.cInst) :
    ∃ rest, s.fetchWindow = s.imem.readBytes s.ip n ++ rest := by
  obtain ⟨k, hk⟩ := Nat.exists_eq_add_of_le (show n ≤ min maxLength (s.cfg.cInst - s.ip) by omega)
  exact ⟨s.imem.readBytes (s.ip + n) k, by rw [State.fetchWindow, hk, Memory.readBytes_add]⟩

theorem decode_fetchWindow_at_end {s : State} (h : s.cfg.cInst ≤ s.ip) :
    decode s.cfg.opmap s.fetchWindow = .error .noOpcode := by
  rw [State.fetchWindow_nil h, decode]

theorem decode_fetchWindow_unknown {s : State} (h : s.ip < s.cfg.cInst)
    (hop : s.cfg.opmap.lookup (s.imem.read s.ip) = none) :
    decode s.cfg.opmap s.fetchWindow = .error (.unknownOpcode (s.imem.read s.ip)) := by
  simp [State.fetchWindow_cons h, decode, hop]

theorem decode_fetchWindow_truncated {s : State} {m : Mnemonic} (h : s.ip < s.cfg.cInst)
    (hop : s.cfg.opmap.lookup (s.imem.read s.ip) = some m) (hlen : s.cfg.cInst < s.ip + m.length) :
    decode s.cfg.opmap s.fetchWindow = .error (.truncated (s.imem.read s.ip)) := by
  have hshort : min 4 (s.cfg.cInst - s.ip - 1) < m.width := by
    rw [Mnemonic.length] at hlen
    omega
  simp only [State.fetchWindow_cons h, decode, hop, Memory.readBytes_length, if_pos hshort]

theorem decode_fetchWindow_fits {s : State} {m : Mnemonic} (hop : s.cfg.opmap.lookup (s.imem.read s.ip) = some m)
    (hfit : s.ip + m.length ≤ s.cfg.cInst) :
    ∃ rest, decode s.cfg.opmap s.fetchWindow =
      .instr (m.assemble (s.imem.readLE (s.ip + 1) m.width)) rest := by
  obtain ⟨rest, hw⟩ := State.fetchWindow_eq_append (mnemonic_length_le_maxLength m) hfit
  rw [Mnemonic.length, Nat.add_comm, Memory.readBytes] at hw
  exact ⟨rest, by rw [hw, List.cons_append, decode_append hop (Memory.readBytes_length ..), Memory.readLE]⟩

/-- Everything a fetch can give: the decoder's fault, which is then the first one of R138's order, or an instruction,
whose own first fault is then the first one. -/
theorem fetch_cases (s : State) :
    (∃ e, decode s.cfg.opmap s.fetchWindow = .error e ∧ firstFault s ≠ .none ∧ firstFault s ≠ .programTooLarge ∧
      s.decodeFault e = s.raise (firstFault s) s.fetchedOpcode) ∨
    ∃ i rest, decode s.cfg.opmap s.fetchWindow = .instr i rest ∧ firstFault s = execFault i s ∧
      s.cfg.opmap.byte i.mnemonic = s.fetchedOpcode := by
  by_cases hend : s.cfg.cInst ≤ s.ip
  · have hfault : firstFault s = .truncatedProgram := if_pos hend
    have hbyte : s.fetchedOpcode = 0 := if_pos hend
    exact .inl ⟨_, decode_fetchWindow_at_end hend, by simp [hfault], by simp [hfault], by rw [hfault, hbyte]; rfl⟩
  · have hlt := Nat.not_le.mp hend
    have hbyte := State.fetchedOpcode_of_lt hlt
    cases hop : s.cfg.opmap.lookup (s.imem.read s.ip) with
    | none =>
      have hfault : firstFault s = .unknownOpcode := by simp [firstFault, hend, hop]
      exact .inl ⟨_, decode_fetchWindow_unknown hlt hop, by simp [hfault], by simp [hfault], by rw [hfault, hbyte]; rfl⟩
    | some m =>
      by_cases hlen : s.cfg.cInst < s.ip + m.length
      · have hfault : firstFault s = .truncatedProgram := by simp [firstFault, hend, hop, hlen]
        exact .inl ⟨_, decode_fetchWindow_truncated hlt hop hlen, by simp [hfault], by simp [hfault],
          by rw [hfault, hbyte]; rfl⟩
      · obtain ⟨rest, hdec⟩ := decode_fetchWindow_fits hop (Nat.le_of_not_lt hlen)
        have hfault : firstFault s = execFault (m.assemble (s.imem.readLE (s.ip + 1) m.width)) s := by
          simp [firstFault, hend, hop, hlen]
        exact .inr ⟨_, rest, hdec, hfault, by rw [Mnemonic.mnemonic_assemble, OpMap.byte_of_lookup hop, hbyte]⟩

/-! ### The step (R60, R138) -/

theorem firstFault_ne_programTooLarge (s : State) : firstFault s ≠ .programTooLarge := by
  rcases fetch_cases s with ⟨-, -, -, hload, -⟩ | ⟨i, -, -, hfault, -⟩
  · exact hload
  · exact hfault ▸ execFault_ne_programTooLarge i s

/-- A step that meets a fault enters the first one of R138's order. -/
theorem step_of_firstFault {s : State} (he : s.Executing) (h : firstFault s ≠ .none) :
    step s = .next (s.raise (firstFault s) s.fetchedOpcode) := by
  rcases fetch_cases s with ⟨e, hdec, -, -, hraise⟩ | ⟨i, rest, hdec, hfault, hbyte⟩
  · rw [step_of_error he hdec, hraise]
  · rw [step_of_instr he hdec, exec_of_fault (hfault ▸ h), ← hfault, State.raiseIn, hbyte]

/-- A step that meets no fault has the effect of the decoded instruction. -/
theorem step_of_no_firstFault {s : State} (he : s.Executing) (h : firstFault s = .none) :
    ∃ i rest, decode s.cfg.opmap s.fetchWindow = .instr i rest ∧ step s = .next (effect i s) := by
  rcases fetch_cases s with ⟨-, -, hne, -⟩ | ⟨i, rest, hdec, hfault, -⟩
  · exact absurd h hne
  · exact ⟨i, rest, hdec, by rw [step_of_instr he hdec, exec_of_no_fault (hfault ▸ h)]⟩

/-- Everything a step of an executing core can do. -/
theorem step_settles {s t : State} (he : s.Executing) (h : step s = .next t) :
    (firstFault s ≠ .none ∧ t = s.raise (firstFault s) s.fetchedOpcode) ∨
      (firstFault s = .none ∧ ∃ i rest, decode s.cfg.opmap s.fetchWindow = .instr i rest ∧ t = effect i s) := by
  by_cases hf : firstFault s = .none
  · obtain ⟨i, rest, hdec, hstep⟩ := step_of_no_firstFault he hf
    exact .inr ⟨hf, i, rest, hdec, Host.Outcome.next.inj (h.symm.trans hstep)⟩
  · exact .inl ⟨hf, Host.Outcome.next.inj (h.symm.trans (step_of_firstFault he hf))⟩

theorem step_answers (s : State) : ∃ t, step s = .next t := by
  by_cases he : s.Executing
  · by_cases hf : firstFault s = .none
    · obtain ⟨i, -, -, hstep⟩ := step_of_no_firstFault he hf
      exact ⟨_, hstep⟩
    · exact ⟨_, step_of_firstFault he hf⟩
  · exact ⟨s, step_of_idle he⟩

end Sys2Proof.Machine

/-! PROOFS. The invariant (R26): kept by a fault entry, by an instruction that lies below `C_INST`, and so by a step. -/

namespace Sys2Proof.Machine

/-- A fault entry keeps the invariant: the record it fills holds `ip` and `sp` as they stay (R140). -/
theorem State.Inv.raise {s : State} (hs : s.Inv) {k : FaultKind} (hk : k ≠ .none) (op : Byte) : (s.raise k op).Inv := by
  obtain ⟨hcfg, hstack, hregs, hip, hmem, hbelow, -, -⟩ := hs
  exact ⟨hcfg, hstack, hregs, hip, hmem, hbelow, fun h => absurd rfl h, fun _ => ⟨hk, rfl, rfl⟩⟩

/-- An instruction that lies wholly below `C_INST` keeps the invariant. -/
theorem exec_keeps_inv {i : Instr} {s t : State} (hs : s.Inv) (hrun : s.runState = .running)
    (hfit : s.ip + i.mnemonic.length ≤ s.cfg.cInst) (h : exec i s = .next t) : t.Inv := by
  rcases exec_cases h with ⟨k, hk, -, rfl⟩ | ⟨st, rs, a, o, r, rfl, hst, hrs, ha, -, hr⟩
  · exact hs.raise hk _
  · obtain ⟨hcfg, hstack, hregs, hip, hmem, hbelow, hzero, -⟩ := hs
    have hrecord : s.fault = FaultRecord.zero := hzero (by simp [hrun])
    have hnotFaulted : r ≠ .faulted := by
      rcases hr with rfl | ⟨-, rfl⟩
      · simp [hrun]
      · decide
    exact ⟨hcfg, show st.length ≤ s.cfg.cStack by simp only [State.sp_eq] at hstack; omega, hrs.trans hregs,
      show a ≤ s.cfg.cInst by omega, hmem, hbelow, fun _ => hrecord, fun h => absurd h hnotFaulted⟩

/-- Settles O46: a step is no step, a fault entry, or an instruction, which the decoder saw wholly below `C_INST`. -/
theorem stepKeepsInvariant : Obligations.StepKeepsInvariant := by
  intro s t hs h
  rcases step_cases h with ⟨-, rfl⟩ | ⟨he, e, -, rfl⟩ | ⟨he, i, rest, hdec, hexec⟩
  · exact hs
  · cases e with
    | noOpcode | unknownOpcode op | truncated op => exact hs.raise (by decide) _
  · exact exec_keeps_inv hs he.2 (State.fetch_fits hdec) hexec

end Sys2Proof.Machine

/-! PROOFS. The statements about one step: from the bytes in memory to the instruction run or the fault raised (R57,
R58, R60, R136, R138 to R141, R168). -/

namespace Sys2Proof.Machine

/-- Settles O1: the decoder evaluated on the spec's own words. -/
theorem decodesSpecWords : Obligations.DecodesSpecWords := by
  unfold Obligations.DecodesSpecWords
  decide

/-- Settles O6, by the step's own equation for a decoded instruction. -/
theorem stepRunsDecoded : Obligations.StepRunsDecoded := fun _ _ _ he hdec => step_of_instr he hdec

/-- Settles O7: the window begins with the instruction's bytes, and they decode to it. -/
theorem stepRunsEncoded : Obligations.StepRunsEncoded := by
  intro s i he hom hwf hfit hbytes
  have hlen : (encode s.cfg.opmap i).length ≤ maxLength := by
    rw [encode_length]
    exact mnemonic_length_le_maxLength i.mnemonic
  obtain ⟨rest, hwindow⟩ := State.fetchWindow_eq_append hlen hfit
  rw [hbytes] at hwindow
  exact step_of_instr he (hwindow ▸ decode_encode_append hom hwf rest)

/-- Settles O8: past the end the first fault is TruncatedProgram, and no opcode byte was fetched. -/
theorem truncatedOpcodeFetch : Obligations.TruncatedOpcodeFetch := by
  intro s he hend
  have hfault : firstFault s = .truncatedProgram := if_pos hend
  have hbyte : s.fetchedOpcode = 0 := if_pos hend
  rw [step_of_firstFault he (by simp [hfault]), hfault, hbyte, State.raise]

/-- Settles O9: the opcode byte selects `m`, and the fetch of its immediate comes before every check of `m`'s own. -/
theorem truncatedImmediateFetch : Obligations.TruncatedImmediateFetch := by
  intro s m he hom hlt hop hlen
  have hfault : firstFault s = .truncatedProgram := by
    have hlen' : s.cfg.cInst < s.ip + m.length := by rwa [Mnemonic.length, ← Nat.add_assoc]
    simp [firstFault, hop, OpMap.lookup_byte hom, hlen']
  rw [step_of_firstFault he (by simp [hfault]), hfault, State.fetchedOpcode_of_lt hlt, State.raise]

/-- A byte OPMAP gives no operation selects none (R55). -/
theorem lookup_eq_none {om : OpMap} {b : Byte} (h : ∀ m, om.byte m ≠ b) : om.lookup b = none :=
  List.find?_eq_none.mpr fun m _ => by simpa using h m

/-- Settles O10: below `C_INST` the opcode byte is fetched, and it selects no operation. -/
theorem unknownOpcodeStep : Obligations.UnknownOpcodeStep := by
  intro s he hlt hop
  have hfault : firstFault s = .unknownOpcode := by simp [firstFault, Nat.not_le.mpr hlt, lookup_eq_none hop]
  rw [step_of_firstFault he (by simp [hfault]), hfault, State.fetchedOpcode_of_lt hlt, State.raise]

/-- Settles O11: the step raises `firstFault`, or has an effect, which leaves the record as it was. -/
theorem stepRaisesTheFirstFault : Obligations.StepRaisesTheFirstFault := by
  intro s t he hclear h
  rcases step_settles he h with ⟨hne, rfl⟩ | ⟨hnone, i, rest, -, rfl⟩
  · exact ⟨rfl, fun _ => hne, fun _ => rfl⟩
  · rw [hnone, effect_fault]
    exact ⟨hclear, fun hf => absurd hf (effect_not_faulted he.2 i), fun hne => absurd rfl hne⟩

/-- Settles O12: a step that ends in Faulted had no effect, so it entered its first fault. -/
theorem faultEntryIsPrecise : Obligations.FaultEntryIsPrecise := by
  intro s t he h hf
  rcases step_settles he h with ⟨hne, rfl⟩ | ⟨-, i, rest, -, rfl⟩
  · exact ⟨rfl, hne, firstFault_ne_programTooLarge s, rfl, rfl, rfl⟩
  · exact absurd hf (effect_not_faulted he.2 i)

/-- Settles O13: a step is no step, a fault entry or an effect, and `exec_eq` answers for every instruction. -/
theorem everyStepAnswers : Obligations.EveryStepAnswers := ⟨step_answers, fun i s => ⟨_, exec_eq i s⟩⟩

/-- Settles O14: a fault entry ends in Faulted, and of the effects STOP's alone ends in Halted. -/
theorem onlyStopHalts : Obligations.OnlyStopHalts := by
  intro s t he h hhalted
  rcases step_settles he h with ⟨-, rfl⟩ | ⟨-, i, rest, hdec, rfl⟩
  · exact absurd hhalted (by simp)
  · obtain rfl : i = .stop := by
      by_contra hi
      rw [effect_runState, if_neg hi, he.2] at hhalted
      exact absurd hhalted (by decide)
    exact ⟨⟨rest, hdec⟩, rfl⟩

end Sys2Proof.Machine

/-! PROOFS. The statements of 60_exceptions.md section 1: each fault kind with exactly the instructions that raise it
(R132 to R135, R137). `faults_iff` turns each into a question about `execFault`. -/

namespace Sys2Proof.Machine

/-- Settles O22: the register check comes before the stack's (D2). -/
theorem invalidRegisterFault : Obligations.InvalidRegisterFault := fun _ _ hr =>
  ⟨faults_of_execFault (by decide) (if_pos hr), faults_of_execFault (by decide) (if_pos hr)⟩

/-- What holds of the top of a stack that has one, said of the slots (R12). -/
theorem exists_top_iff (s : State) (P : Word → Prop) :
    (∃ below v, s.stack = below ++ [v] ∧ P v) ↔ ¬ s.sp < 1 ∧ P s.top := by
  constructor
  · rintro ⟨below, v, hs, hv⟩
    exact ⟨by simp [hs], State.top_of_stack hs ▸ hv⟩
  · rintro ⟨hdepth, hv⟩
    obtain ⟨below, v, hs⟩ := exists_top (Nat.le_of_not_lt hdepth)
    exact ⟨below, v, hs, State.top_of_stack hs ▸ hv⟩

/-- The same where the top is a given value. -/
theorem exists_top_eq_iff (s : State) (v : Word) : (∃ below, s.stack = below ++ [v]) ↔ ¬ s.sp < 1 ∧ s.top = v := by
  simpa only [exists_eq_right] using exists_top_iff s (· = v)

/-- The top of a stack of at least two, said of the slots (R12). -/
theorem exists_top_two_eq_iff (s : State) (v : Word) :
    (∃ below y, s.stack = below ++ [y, v]) ↔ ¬ s.sp < 2 ∧ s.top = v := by
  constructor
  · rintro ⟨below, y, hs⟩
    exact ⟨by simp [hs], State.top_of_stack_two hs⟩
  · rintro ⟨hdepth, rfl⟩
    obtain ⟨below, y, x, hs⟩ := exists_top_two (Nat.le_of_not_lt hdepth)
    exact ⟨below, y, by rw [State.top_of_stack_two hs, hs]⟩

/-- Settles O34: of the first faults of R138's order only PUSH's and LOAD's can be StackOverflow. -/
theorem stackOverflowExactly : Obligations.StackOverflowExactly := by
  intro i s hs hle
  rw [faults_iff hs (by decide)]
  have hfull : s.cfg.cStack ≤ s.stack.length ↔ s.stack.length = s.cfg.cStack := by omega
  cases i with
  | push v => simp [execFault, hfull]
  | load r => simp [execFault, ite_eq_iff, hfull, and_comm]
  | _ => simp [execFault, ite_eq_iff]

/-- Settles O35: the depth check is the first of every instruction that has one, but for STORE's register check. -/
theorem stackUnderflowExactly : Obligations.StackUnderflowExactly := by
  intro i s hs
  rw [faults_iff hs (by decide)]
  cases i with
  | store r => simp [execFault, ite_eq_iff, and_comm]
  | _ => simp [execFault, ite_eq_iff]

/-- Settles O36: only DIV checks a divisor, the top of a stack of at least two. -/
theorem divisionByZeroExactly : Obligations.DivisionByZeroExactly := by
  intro i s hs
  rw [faults_iff hs (by decide), exists_top_two_eq_iff]
  cases i <;> simp [execFault, ite_eq_iff]

/-- Settles O37: a jump's target is checked exactly when it is jumped to. -/
theorem invalidJumpTargetExactly : Obligations.InvalidJumpTargetExactly := by
  intro i s hs
  rw [faults_iff hs (by decide)]
  simp only [exists_top_iff, exists_top_eq_iff]
  cases i with
  | jmp a => simp [execFault]
  | jz a | jnz a => simp [execFault, ite_eq_iff, and_comm, and_left_comm]
  | _ => simp [execFault, ite_eq_iff]

end Sys2Proof.Machine

/-! PROOFS. The arithmetic of 00_scope.md section 4 and 43_arithmetic.md section 3: `wrap32` and `tdiv` (R105, R106). -/

namespace Sys2Proof.Machine

/-! ### wrap32 -/

theorem wrap32_toInt_of_fits {z : Int} (hlo : -2 ^ 31 ≤ z) (hhi : z < 2 ^ 31) : (wrap32 z).toInt = z :=
  BitVec.toInt_ofInt_eq_self (by decide) hlo hhi

/-- A word is the wrapped value of every integer congruent to it modulo 2^32. -/
theorem eq_wrap32_of_emod_eq {r : Word} {z : Int} (h : r.toInt % 2 ^ 32 = z % 2 ^ 32) : r = wrap32 z := by
  rw [← BitVec.toInt_inj, wrap32, BitVec.toInt_ofInt, ← BitVec.toInt_bmod_cancel r, ← Int.emod_bmod r.toInt,
    ← Int.emod_bmod z]
  exact congrArg (Int.bmod · (2 ^ 32)) h

theorem wrap32_add (y x : Word) : wrap32 (y.toInt + x.toInt) = y + x := by
  rw [wrap32, BitVec.ofInt_add, BitVec.ofInt_toInt, BitVec.ofInt_toInt]

theorem wrap32_sub (y x : Word) : wrap32 (y.toInt - x.toInt) = y - x := by
  rw [wrap32, Int.sub_eq_add_neg, BitVec.ofInt_add, BitVec.ofInt_neg, BitVec.ofInt_toInt, BitVec.ofInt_toInt,
    BitVec.sub_eq_add_neg]

theorem wrap32_mul (y x : Word) : wrap32 (y.toInt * x.toInt) = y * x := by
  rw [wrap32, BitVec.ofInt_mul, BitVec.ofInt_toInt, BitVec.ofInt_toInt]

/-- Settles O32: the bounds are those of a 32-bit word, and both directions of the congruence go through `bmod`. -/
theorem wrap32Congruent : Obligations.Wrap32Congruent := fun z =>
  ⟨BitVec.le_toInt _, BitVec.toInt_lt, by rw [wrap32, BitVec.toInt_ofInt]; exact Int.bmod_emod,
    fun _ h => eq_wrap32_of_emod_eq h⟩

/-! ### tdiv -/

/-- The quotient of 00_scope.md section 4 is the library's, rounding toward zero. -/
theorem tdiv_eq_tdiv (b a : Int) : tdiv b a = b.tdiv a := by
  rw [tdiv, ← Int.sign_mul_natAbs (b.tdiv a), Int.sign_tdiv, Int.natAbs_tdiv]
  split
  · next hlt => simp [Nat.div_eq_of_lt hlt]
  · rfl

theorem natAbs_tdiv (b a : Int) : (tdiv b a).natAbs = b.natAbs / a.natAbs := by
  rw [tdiv_eq_tdiv, Int.natAbs_tdiv]
  rfl

/-- The quotient is zero or has the sign of the product of its operands (R106). -/
theorem tdiv_mul_nonneg (b a : Int) : 0 ≤ tdiv b a * (b * a) := by
  have hsigns : tdiv b a * (b * a) = (b.sign * b) * (a.sign * a) * ((b.natAbs / a.natAbs : Nat) : Int) := by
    rw [tdiv]
    ring
  rw [hsigns, Int.sign_mul_self_eq_natAbs, Int.sign_mul_self_eq_natAbs]
  positivity

theorem wrap32_tdiv (y x : Word) : wrap32 (tdiv y.toInt x.toInt) = y.sdiv x := by
  rw [← BitVec.toInt_inj, wrap32, BitVec.toInt_ofInt, BitVec.toInt_sdiv, tdiv_eq_tdiv]

/-- Settles O33: the magnitude of the quotient is the quotient of the magnitudes. -/
theorem quotientTruncates : Obligations.QuotientTruncates := by
  intro y x hx
  refine ⟨?bound, tdiv_mul_nonneg y x, ?largest⟩
  case bound =>
    rw [Int.natAbs_mul, natAbs_tdiv]
    exact Nat.div_mul_le_self ..
  case largest =>
    intro q hq
    rw [natAbs_tdiv, Nat.le_div_iff_mul_le (Int.natAbs_pos.mpr hx), ← Int.natAbs_mul]
    exact hq

end Sys2Proof.Machine

/-! PROOFS. The statements of 40_stack_ops.md to 44_output_and_halt.md: the effect and the faults of each instruction
(R70 to R121). Each clause without a fault is `execFault`'s `none` and the effect written out; each other is the fault
that `execFault` answers. -/

namespace Sys2Proof.Machine

/-- An instruction that meets no fault answers its effect. -/
theorem exec_eq_next {i : Instr} {s t : State} (hfault : execFault i s = .none) (heffect : effect i s = t) :
    exec i s = .next t :=
  heffect ▸ exec_of_no_fault hfault

theorem depth_of_stack {s : State} {below : List Word} {v : Word} (h : s.stack = below ++ [v]) : ¬ s.sp < 1 := by
  simp [h]

theorem depth_of_stack_two {s : State} {below : List Word} {y x : Word} (h : s.stack = below ++ [y, x]) :
    ¬ s.sp < 2 := by
  simp [h]

theorem depth_of_empty {s : State} (h : s.stack = []) : s.sp < 1 := by simp [h]

/-! ### Stack operations (R70 to R72) -/

/-- Settles O17: NOP has no precondition. -/
theorem nopEffect : Obligations.NopEffect := fun s => exec_of_no_fault (i := .nop) (s := s) rfl

/-- Settles O18: the room check decides between the push and the fault. -/
theorem pushEffect : Obligations.PushEffect := fun _ _ =>
  ⟨fun hroom => exec_eq_next (if_neg (Nat.not_le.mpr hroom)) rfl,
    fun hfull => faults_of_execFault (by decide) (if_pos hfull)⟩

theorem effect_pop {s : State} {below : List Word} {v : Word} (h : s.stack = below ++ [v]) :
    effect .pop s = { s with stack := below, ip := s.ip + 1 } := by
  rw [effect, State.dropped_of_stack h]
  rfl

theorem exec_pop {s : State} {below : List Word} {v : Word} (h : s.stack = below ++ [v]) :
    exec .pop s = .next { s with stack := below, ip := s.ip + 1 } :=
  exec_eq_next (if_neg (depth_of_stack h)) (effect_pop h)

/-- Settles O19: the depth check decides between the pop and the fault. -/
theorem popEffect : Obligations.PopEffect := fun _ =>
  ⟨fun _ _ hs => exec_pop hs, fun hempty => faults_of_execFault (by decide) (if_pos (depth_of_empty hempty))⟩

/-- Settles O44: PUSH leaves its value on top, and POP takes it off. -/
theorem pushPopRoundTrip : Obligations.PushPopRoundTrip := fun s v hroom =>
  ⟨_, (pushEffect s v).1 hroom, exec_pop (below := s.stack) (v := v) rfl⟩

/-! ### Register transfer (R80, R81) -/

theorem exec_load {s : State} {r : Nat} (hr : r < s.cfg.cRegs) (hroom : s.stack.length < s.cfg.cStack) {v : Word}
    (hv : s.readReg r = v) : exec (.load r) s = .next { s with stack := s.stack ++ [v], ip := s.ip + 2 } :=
  exec_eq_next ((if_neg (Nat.not_le.mpr hr)).trans (if_neg (Nat.not_le.mpr hroom))) (by rw [effect, hv]; rfl)

/-- Settles O20: the register exists, so the room check decides. -/
theorem loadEffect : Obligations.LoadEffect := fun _ _ hr =>
  ⟨fun hroom => exec_load hr hroom rfl,
    fun hfull => faults_of_execFault (by decide) ((if_neg (Nat.not_le.mpr hr)).trans (if_pos hfull))⟩

theorem exec_store {s : State} {r : Nat} (hr : r < s.cfg.cRegs) {below : List Word} {v : Word}
    (h : s.stack = below ++ [v]) :
    exec (.store r) s = .next { s with stack := below, registers := (s.writeReg r v).registers, ip := s.ip + 2 } := by
  refine exec_eq_next ((if_neg (Nat.not_le.mpr hr)).trans (if_neg (depth_of_stack h))) ?_
  rw [effect, State.dropped_of_stack h, State.top_of_stack h]
  rfl

/-- Settles O21: the register exists, so the depth check decides; the register file is by the laws of `writeReg`. -/
theorem storeEffect : Obligations.StoreEffect := by
  intro s r hr hregs
  refine ⟨fun below v hs => ⟨_, exec_store hr hs, rfl, ?_, ?_, ?_⟩, fun hempty => ?_⟩
  · exact List.length_set ..
  · exact s.readReg_writeReg_same (hregs ▸ hr) v
  · exact fun q hq => s.readReg_writeReg_other hq v
  · exact faults_of_execFault (by decide) ((if_neg (Nat.not_le.mpr hr)).trans (if_pos (depth_of_empty hempty)))

/-- Settles O43: STORE makes room for one element, and LOAD reads back the value just written. -/
theorem storeLoadRoundTrip : Obligations.StoreLoadRoundTrip := by
  intro s r below v hs hr hregs hle
  have hroom : below.length < s.cfg.cStack := by
    rw [hs, List.length_append] at hle
    exact hle
  have hread := s.readReg_writeReg_same (hregs ▸ hr) v
  refine ⟨_, _, exec_store hr hs, exec_load (v := v) ?register ?room ?read, ?state, hread⟩
  case register => exact hr
  case room => exact hroom
  case read => exact hread
  case state => simp only [hs]

/-! ### Control transfer (R90 to R93) -/

/-- Settles O23: the target check decides between the jump and the fault. -/
theorem jmpEffect : Obligations.JmpEffect := fun _ _ =>
  ⟨fun ha => exec_eq_next (if_neg (Nat.not_lt.mpr ha)) rfl, fun ha => faults_of_execFault (by decide) (if_pos ha)⟩

section Branch

variable {s : State} {below : List Word} {v : Word} {taken : Word → Bool} {a : Nat}

theorem branch_taken (hs : s.stack = below ++ [v]) (m : Mnemonic) (hv : taken v = true) (ha : a ≤ s.cfg.cInst) :
    s.branch m taken a = .next { s with stack := below, ip := a } := by
  rw [State.branch, State.withTop_of_stack hs, if_pos hv, State.targetValid, decide_eq_true ha, Bool.not_true,
    State.check_false, State.dropped_of_stack hs, State.setIp]

theorem branch_not_taken (hs : s.stack = below ++ [v]) (m : Mnemonic) (hv : taken v = false) :
    s.branch m taken a = .next { s with stack := below, ip := s.ip + m.length } := by
  rw [State.branch, State.withTop_of_stack hs, if_neg (Bool.not_eq_true _ ▸ hv), State.dropped_of_stack hs]
  rfl

theorem branch_past_end (hs : s.stack = below ++ [v]) (m : Mnemonic) (hv : taken v = true) (ha : s.cfg.cInst < a) :
    s.branch m taken a = .next (s.raiseIn .invalidJumpTarget m) := by
  rw [State.branch, State.withTop_of_stack hs, if_pos hv, State.targetValid, decide_eq_false (Nat.not_le.mpr ha),
    Bool.not_false, State.check_true]

end Branch

/-- Settles O24: `condZero` decides whether JZ jumps, and so whether its target is checked (D8). -/
theorem jzEffect : Obligations.JzEffect := fun _ _ =>
  ⟨fun _ _ hs =>
    ⟨fun hv => branch_taken hs .jz (by simpa [condZero_eq] using hv),
      fun hv => branch_not_taken hs .jz (by simpa [condZero_eq] using hv),
      fun hv => branch_past_end hs .jz (by simpa [condZero_eq] using hv)⟩,
    fun hempty => faults_of_execFault (by decide) (if_pos (depth_of_empty hempty))⟩

/-- Settles O25: `condNonZero` decides whether JNZ jumps. -/
theorem jnzEffect : Obligations.JnzEffect := fun _ _ =>
  ⟨fun _ _ hs =>
    ⟨fun hv => branch_taken hs .jnz (by simpa [condNonZero_eq] using hv),
      fun hv => branch_not_taken hs .jnz (by simpa [condNonZero_eq] using hv),
      fun hv => branch_past_end hs .jnz (by simpa [condNonZero_eq] using hv)⟩,
    fun hempty => faults_of_execFault (by decide) (if_pos (depth_of_empty hempty))⟩

/-! ### Arithmetic (R100 to R106) -/

section Arith

variable {s : State} {below : List Word} {y x : Word}

theorem exec_add (hs : s.stack = below ++ [y, x]) :
    exec .add s = .next { s with stack := below ++ [y + x], ip := s.ip + 1 } := by
  refine exec_eq_next (if_neg (depth_of_stack_two hs)) ?_
  rw [effect, State.second_of_stack hs, State.top_of_stack_two hs, State.arithResult_of_stack hs, wrap32_add]
  rfl

theorem exec_sub (hs : s.stack = below ++ [y, x]) :
    exec .sub s = .next { s with stack := below ++ [y - x], ip := s.ip + 1 } := by
  refine exec_eq_next (if_neg (depth_of_stack_two hs)) ?_
  rw [effect, State.second_of_stack hs, State.top_of_stack_two hs, State.arithResult_of_stack hs, wrap32_sub]
  rfl

theorem exec_mul (hs : s.stack = below ++ [y, x]) :
    exec .mul s = .next { s with stack := below ++ [y * x], ip := s.ip + 1 } := by
  refine exec_eq_next (if_neg (depth_of_stack_two hs)) ?_
  rw [effect, State.second_of_stack hs, State.top_of_stack_two hs, State.arithResult_of_stack hs, wrap32_mul]
  rfl

theorem exec_div (hs : s.stack = below ++ [y, x]) (hx : x ≠ 0) :
    exec .div s = .next { s with stack := below ++ [y.sdiv x], ip := s.ip + 1 } := by
  have htop := State.top_of_stack_two hs
  refine exec_eq_next ((if_neg (depth_of_stack_two hs)).trans (if_neg (htop ▸ hx))) ?_
  rw [effect, State.second_of_stack hs, htop, State.arithResult_of_stack hs, wrap32_tdiv]
  rfl

end Arith

/-- Settles O26: the wrapped sum is the sum of the words, and exact where it fits. -/
theorem addEffect : Obligations.AddEffect := fun _ =>
  ⟨fun _ y x hs => ⟨exec_add hs, fun hlo hhi => wrap32_add y x ▸ wrap32_toInt_of_fits hlo hhi⟩,
    fun hshort => faults_of_execFault (by decide) (if_pos hshort)⟩

/-- Settles O27: as for the sum, with the difference. -/
theorem subEffect : Obligations.SubEffect := fun _ =>
  ⟨fun _ y x hs => ⟨exec_sub hs, fun hlo hhi => wrap32_sub y x ▸ wrap32_toInt_of_fits hlo hhi⟩,
    fun hshort => faults_of_execFault (by decide) (if_pos hshort)⟩

/-- Settles O28: as for the sum, with the product. -/
theorem mulEffect : Obligations.MulEffect := fun _ =>
  ⟨fun _ y x hs => ⟨exec_mul hs, fun hlo hhi => wrap32_mul y x ▸ wrap32_toInt_of_fits hlo hhi⟩,
    fun hshort => faults_of_execFault (by decide) (if_pos hshort)⟩

/-- The words of the one quotient out of range (D7). -/
theorem toInt_eq_intMin_iff (y : Word) : y.toInt = -2 ^ 31 ↔ y = BitVec.intMin 32 := by
  rw [← BitVec.toInt_inj]
  rfl

theorem toInt_eq_neg_one_iff (x : Word) : x.toInt = -1 ↔ x = -1#32 := by
  rw [← BitVec.toInt_inj]
  rfl

/-- Settles O29: the depth is checked before the divisor, and the one quotient out of range wraps to the dividend. -/
theorem divEffect : Obligations.DivEffect := by
  intro s
  refine ⟨fun below y x hs => ⟨fun hx => ⟨exec_div hs hx, fun hfits => ?exact, fun hy hx => ?wraps⟩, fun hx => ?zero⟩,
    fun hshort => faults_of_execFault (by decide) (if_pos hshort)⟩
  case exact =>
    rw [ne_eq, ne_eq, toInt_eq_intMin_iff, toInt_eq_neg_one_iff] at hfits
    exact BitVec.toInt_sdiv_of_ne_or_ne y x hfits
  case wraps =>
    obtain rfl := (toInt_eq_intMin_iff y).mp hy
    obtain rfl := (toInt_eq_neg_one_iff x).mp hx
    exact BitVec.intMin_sdiv_neg_one
  case zero =>
    have htop : s.top = 0 := (State.top_of_stack_two hs).trans hx
    exact faults_of_execFault (by decide) ((if_neg (depth_of_stack_two hs)).trans (if_pos htop))

/-! ### Output and halt (R120, R121) -/

theorem effect_print {s : State} {below : List Word} {v : Word} (h : s.stack = below ++ [v]) :
    effect .print s = { s with stack := below, out := s.out ++ [v], ip := s.ip + 1 } := by
  have hemit : (s.emit s.top).stack = below ++ [v] := h
  rw [effect, State.dropped_of_stack hemit, State.top_of_stack h]
  rfl

/-- Settles O30: the value emitted is the one then popped. -/
theorem printEffect : Obligations.PrintEffect := fun _ =>
  ⟨fun _ _ hs => exec_eq_next (if_neg (depth_of_stack hs)) (effect_print hs),
    fun hempty => faults_of_execFault (by decide) (if_pos (depth_of_empty hempty))⟩

/-- Settles O31: STOP has no precondition. -/
theorem stopEffect : Obligations.StopEffect := fun s => exec_of_no_fault (i := .stop) (s := s) rfl

end Sys2Proof.Machine

/-! PROOFS. The laws over all instructions: frames, `sp`, the output, registers, and the opcode assignment (R13, R26,
R30, R40, R44, R54, R100, R120). -/

namespace Sys2Proof

/-- How many elements an operation takes off the stack (R12, R100). It is tied to the model by `effect_stack`. -/
def Mnemonic.pops : Mnemonic → Nat
  | .add | .sub | .mul | .div => 2
  | .pop | .store | .jz | .jnz | .print => 1
  | .nop | .push | .load | .jmp | .stop => 0

/-- How many elements an operation then puts on the stack. It is tied to the model by `effect_stack`. -/
def Mnemonic.pushes : Mnemonic → Nat
  | .push | .load | .add | .sub | .mul | .div => 1
  | .nop | .pop | .store | .jmp | .jz | .jnz | .print | .stop => 0

end Sys2Proof

namespace Sys2Proof.Machine

/-! ### The stack of an effect -/

/-- An effect leaves the slots below those it pops, and puts what it pushes above them. -/
theorem effect_stack (i : Instr) (s : State) :
    ∃ new, (effect i s).stack = s.stack.take (s.stack.length - i.mnemonic.pops) ++ new ∧
      new.length = i.mnemonic.pushes := by
  cases i with
  | nop | jmp a | stop => exact ⟨[], by simp [effect, Instr.mnemonic, Mnemonic.pops], rfl⟩
  | push v => exact ⟨[v], by simp [effect, Instr.mnemonic, Mnemonic.pops], rfl⟩
  | load r => exact ⟨[s.readReg r], by simp [effect, Instr.mnemonic, Mnemonic.pops], rfl⟩
  | pop | store r | jz a | jnz a | print => exact ⟨[], (List.append_nil _).symm, rfl⟩
  | add | sub | mul | div => exact ⟨_, rfl, rfl⟩

/-- Where no fault is met, the elements an instruction pops are there (R133). -/
theorem pops_le_of_no_fault {i : Instr} {s : State} (h : execFault i s = .none) :
    i.mnemonic.pops ≤ s.stack.length := by
  cases i with
  | nop | push v | load r | jmp a | stop => exact Nat.zero_le _
  | pop | store r | jz a | jnz a | add | sub | mul | div | print =>
    simp only [execFault, ite_eq_iff, reduceCtorEq, and_false, false_or, State.sp_eq] at h
    simp only [Instr.mnemonic, Mnemonic.pops]
    omega

/-- How an effect moves `sp` (R13). -/
theorem effect_sp {i : Instr} {s : State} (h : execFault i s = .none) :
    (effect i s).stack.length + i.mnemonic.pops = s.stack.length + i.mnemonic.pushes := by
  obtain ⟨new, hstack, hnew⟩ := effect_stack i s
  have hpops := pops_le_of_no_fault h
  rw [hstack, List.length_append, List.length_take, hnew]
  omega

/-- A slot below those an effect pops reads as before (R11). -/
theorem effect_slot {i : Instr} {s : State} {k : Nat} (hk : k + i.mnemonic.pops < s.stack.length) :
    (effect i s).slot k = s.slot k := by
  obtain ⟨new, hstack, -⟩ := effect_stack i s
  have hlt : k < s.stack.length - i.mnemonic.pops := by omega
  have hslot : k < s.stack.length := by omega
  simp [State.slot, hstack, hlt, hslot, List.getElem?_append_left]

/-- Of the operations that pop, only the arithmetic ones push. -/
theorem pops_eq_zero_or_pushes_eq_zero {i : Instr} (hi : ¬ (i = .add ∨ i = .sub ∨ i = .mul ∨ i = .div)) :
    i.mnemonic.pops = 0 ∨ i.mnemonic.pushes = 0 := by
  cases i with
  | add | sub | mul | div => simp at hi
  | nop | push v | load r | jmp a | stop => exact .inl rfl
  | pop | store r | jz a | jnz a | print => exact .inr rfl

/-- A slot occupied before and after an effect is one it did not pop, unless an arithmetic result landed there. -/
theorem add_pops_lt {i : Instr} {s : State} {k : Nat} (hk : k < s.stack.length) (hk' : k < (effect i s).stack.length)
    (harith : (i = .add ∨ i = .sub ∨ i = .mul ∨ i = .div) → k + 1 < (effect i s).stack.length) :
    k + i.mnemonic.pops < s.stack.length := by
  obtain ⟨new, hstack, hnew⟩ := effect_stack i s
  rw [hstack, List.length_append, List.length_take, hnew] at hk' harith
  by_cases hi : i = .add ∨ i = .sub ∨ i = .mul ∨ i = .div
  · have hresult := harith hi
    have hpush : i.mnemonic.pushes = 1 := by rcases hi with rfl | rfl | rfl | rfl <;> rfl
    omega
  · rcases pops_eq_zero_or_pushes_eq_zero hi with h | h <;> omega

/-! ### The statements -/

/-- Settles O38: a fault entry keeps all of it, an effect by the frame lemmas of its components. -/
theorem execFrame : Obligations.ExecFrame := by
  intro i s t h
  rcases exec_settles h with ⟨-, rfl⟩ | ⟨-, rfl⟩
  · exact ⟨rfl, rfl, fun _ => rfl, rfl, fun _ _ => rfl, fun _ => rfl, fun _ _ _ _ => rfl, fun _ hf => absurd rfl hf⟩
  · refine ⟨effect_cfg i s, effect_started i s, fun a => by rw [effect_imem], effect_registers_length i s,
      fun r hr => effect_readReg hr s, fun hi => effect_out hi s, fun k hk hk' harith => ?slots, fun hs _ => ?ending⟩
    case slots => exact effect_slot (add_pops_lt hk hk' harith)
    case ending => exact ⟨effect_fault i s, fun hi => by rw [effect_runState, if_neg hi, hs]⟩

/-- Settles O39: a fault entry keeps `sp`, and an effect moves it by what its operation pops and pushes. -/
theorem stackPointerMoves : Obligations.StackPointerMoves := by
  intro i s t hs h
  rcases exec_settles h with ⟨-, rfl⟩ | ⟨hf, rfl⟩
  · exact ⟨fun _ => rfl, fun hf => absurd rfl hf⟩
  · have hsp := effect_sp hf
    simp only [State.sp_eq]
    refine ⟨fun hfaulted => absurd hfaulted (effect_not_faulted hs i), fun _ => ⟨fun hi => ?up, fun hi => ?down,
      fun hi => ?still⟩⟩
    case up =>
      have hup : ∀ m ∈ [Mnemonic.push, .load], m.pushes = m.pops + 1 := by decide
      have := hup _ hi
      omega
    case down =>
      have hdown : ∀ m ∈ [Mnemonic.pop, .store, .jz, .jnz, .add, .sub, .mul, .div, .print],
          m.pops = m.pushes + 1 := by decide
      have := hdown _ hi
      omega
    case still =>
      have hstill : ∀ m ∈ [Mnemonic.nop, .jmp, .stop], m.pops = m.pushes := by decide
      have := hstill _ hi
      omega

theorem State.decodeFault_out (s : State) (e : DecodeError) : (s.decodeFault e).out = s.out := by
  cases e <;> rfl

theorem exec_out_prefix {i : Instr} {s t : State} (h : exec i s = .next t) : s.out <+: t.out := by
  rcases exec_cases h with ⟨k, -, -, rfl⟩ | ⟨st, rs, a, o, r, rfl, -, -, -, hout, -⟩
  · exact List.prefix_refl _
  · exact hout

theorem step_out_prefix {s t : State} (h : step s = .next t) : s.out <+: t.out := by
  rcases step_cases h with ⟨-, rfl⟩ | ⟨-, e, -, rfl⟩ | ⟨-, i, rest, -, hexec⟩
  · exact List.prefix_refl _
  · rw [State.decodeFault_out]
  · exact exec_out_prefix hexec

/-- Settles O41: every step appends, so every run does. -/
theorem outputOnlyGrows : Obligations.OutputOnlyGrows := fun _ s _ h =>
  run_keeps (P := fun u => s.out <+: u.out) (fun hu huv => hu.trans (step_out_prefix huv)) (List.prefix_refl _) h

/-- A step that runs no STORE to a register leaves it (R40). -/
theorem step_readReg {r : Nat} {s t : State} (h : step s = .next t)
    (hr : ∀ rest, decode s.cfg.opmap s.fetchWindow ≠ .instr (.store r) rest) : t.readReg r = s.readReg r := by
  by_cases he : s.Executing
  · rcases step_settles he h with ⟨-, rfl⟩ | ⟨-, i, rest, hdec, rfl⟩
    · rfl
    · exact effect_readReg (fun hi => hr rest (hi ▸ hdec)) s
  · obtain rfl := Host.Outcome.next.inj (h.symm.trans (step_of_idle he))
    rfl

theorem run_succ_of_step {n : Nat} {s u : State} (h : step s = .next u) : run (n + 1) s = run n u := by
  rw [run, h]

/-- Settles O42, by induction on the number of steps: the first one leaves the register, and so does the rest. -/
theorem registerKeepsLatestStore : Obligations.RegisterKeepsLatestStore := by
  intro r n
  induction n with
  | zero =>
    intro s t h _
    obtain rfl := Host.Outcome.next.inj h
    rfl
  | succ n ih =>
    intro s t h hstore
    obtain ⟨u, hu, hrun⟩ := run_succ_cases h
    have hrest : ∀ k v rest, k < n → run k u = .next v →
        decode v.cfg.opmap v.fetchWindow ≠ .instr (.store r) rest := fun k v rest hk hv =>
      hstore (k + 1) v rest (Nat.succ_lt_succ hk) ((run_succ_of_step hu).trans hv)
    calc t.readReg r
      _ = u.readReg r := ih u t hrun hrest
      _ = s.readReg r := step_readReg hu fun rest => hstore 0 s rest n.succ_pos rfl

/-! ### Independence of the opcode assignment (R54) -/

/-- The same state under another opcode assignment. -/
def State.withOpMap (s : State) (om : OpMap) : State := { s with cfg := { s.cfg with opmap := om } }

theorem execFault_withOpMap (i : Instr) (s : State) (om : OpMap) : execFault i (s.withOpMap om) = execFault i s := by
  cases i <;> rfl

theorem effect_withOpMap (i : Instr) (s : State) (om : OpMap) :
    effect i (s.withOpMap om) = (effect i s).withOpMap om := by
  cases i <;> rfl

/-- Settles O45: neither the first fault nor the effect reads OPMAP, and a fault entry reads it for the record alone. -/
theorem opMapIndependence : Obligations.OpMapIndependence := by
  intro i s t om hs h
  change exec i (s.withOpMap om) = _
  rcases exec_settles h with ⟨hf, rfl⟩ | ⟨hf, rfl⟩
  · rw [← execFault_withOpMap i s om] at hf
    rw [exec_of_fault hf, execFault_withOpMap]
    rfl
  · rw [exec_of_no_fault ((execFault_withOpMap i s om).trans hf), effect_withOpMap, if_neg (effect_not_faulted hs i)]
    rfl

end Sys2Proof.Machine

/-! PROOFS. The statements of 70_reset_and_hazards.md sections 1 and 2: reset, load, start (R160 to R166, R25, R26). -/

namespace Sys2Proof.Machine

/-! ### Memory filled from empty -/

theorem Memory.nil_wf : Memory.wf [] := ⟨List.Pairwise.nil, fun _ h => absurd h List.not_mem_nil⟩

theorem Memory.nil_below (n : Nat) : Memory.Below [] n := fun _ h => absurd h List.not_mem_nil

/-- What every address reads as once a program was written from 0 on into empty memory (R162). -/
theorem Memory.read_writeBytes_nil (p : List Byte) (c : Nat) :
    (Memory.writeBytes [] 0 p).read c = if c < p.length then p.getD c 0 else 0 := by
  simpa using Memory.read_writeBytes Memory.nil_wf 0 p c

/-- In canonical form, writing the unlisted byte where it is already read changes nothing. -/
theorem Memory.write_unlisted {m : Memory} (hm : m.wf) {a : Nat} (h : m.read a = unlistedByte) :
    m.write a unlistedByte = m := by
  obtain ⟨hsorted, hlisted⟩ := hm
  induction m with
  | nil => rfl
  | cons p rest ih =>
    obtain ⟨k, b⟩ := p
    rw [Memory.write]
    by_cases hlt : a < k
    · simp [hlt]
    · by_cases hak : a = k
      · rw [Memory.read, if_pos hak.symm] at h
        exact absurd h (hlisted (k, b) List.mem_cons_self)
      · rw [Memory.read, if_neg (Ne.symm hak)] at h
        have htail := ih h (List.pairwise_cons.mp hsorted).2 fun q hq => hlisted q (List.mem_cons_of_mem _ hq)
        simp [hlt, hak, htail]

/-- Writing zero bytes where memory already reads zero changes nothing. -/
theorem Memory.writeBytes_zeros {m : Memory} (hm : m.wf) {a : Nat} (h : ∀ c, a ≤ c → m.read c = 0) (k : Nat) :
    m.writeBytes a (List.replicate k 0) = m := by
  induction k generalizing a with
  | zero => rfl
  | succ k ih =>
    rw [List.replicate_succ, Memory.writeBytes]
    have hfirst : m.write a 0 = m := Memory.write_unlisted hm (h a (Nat.le_refl a))
    rw [hfirst]
    exact ih fun c hc => h c (by omega)

theorem Memory.writeBytes_append (m : Memory) (a : Nat) (xs ys : List Byte) :
    m.writeBytes a (xs ++ ys) = (m.writeBytes a xs).writeBytes (a + xs.length) ys := by
  induction xs generalizing m a with
  | nil => rfl
  | cons x xs ih =>
    rw [List.cons_append, Memory.writeBytes, ih, Memory.writeBytes, List.length_cons, Nat.add_assoc, Nat.add_comm 1]

/-! ### Reset (R25, R160) -/

/-- Settles O49: each component by its law. -/
theorem resetValues : Obligations.ResetValues := fun s =>
  ⟨rfl, fun r => by simp [State.readReg], List.length_replicate, rfl, hostReset_imem_read s, rfl, rfl, rfl, rfl⟩

theorem State.resetFor_inv {cfg : Config} (hcfg : cfg.WF) : (State.resetFor cfg).Inv :=
  ⟨hcfg, Nat.zero_le _, List.length_replicate, Nat.zero_le _, Memory.nil_wf, Memory.nil_below _, fun _ => rfl,
    fun h => absurd h (by simp [State.resetFor])⟩

/-- Settles O47: the reference configuration is well-formed. -/
theorem resetHasInvariant : Obligations.ResetHasInvariant := State.resetFor_inv (by decide)

/-- Settles O48: a program that fits fills memory below `C_INST`, in canonical form; the rest is the reset state's. -/
theorem initHasInvariant : Obligations.InitHasInvariant := by
  intro cfg p hcfg hp
  obtain ⟨-, hstack, hregs, hip, -, -, hzero, hfaulted⟩ := State.resetFor_inv hcfg
  have hmem : (Memory.writeBytes [] 0 p).wf := Memory.writeBytes_wf Memory.nil_wf 0 p
  have hbelow : (Memory.writeBytes [] 0 p).Below cfg.cInst :=
    Memory.writeBytes_below (Memory.nil_below _) (by rwa [Nat.zero_add])
  exact ⟨⟨hcfg, hstack, hregs, hip, hmem, hbelow, hzero, hfaulted⟩, rfl, rfl⟩

/-! ### Load and start (R162 to R166) -/

theorem load_of_fits {s : State} {p : List Byte} (hs : s.started = false) (hp : p.length ≤ s.cfg.cInst) :
    load p s = .next { s with imem := Memory.writeBytes s.imem 0 p } := by
  rcases load_cases s p with ⟨hstarted, -⟩ | ⟨-, hlarge, -⟩ | ⟨-, -, h⟩
  · exact absurd (hs.symm.trans hstarted) (by decide)
  · omega
  · exact h

theorem start_of_not_started {s : State} (hs : s.started = false) : start s = .next { s with started := true } := by
  rcases start_cases s with ⟨hstarted, -⟩ | ⟨-, h⟩
  · exact absurd (hs.symm.trans hstarted) (by decide)
  · exact h

/-- Settles O51: after reset memory is empty, and `read_writeBytes` says what filling it leaves. -/
theorem loadWritesProgram : Obligations.LoadWritesProgram := by
  intro s p hp
  refine ⟨Memory.writeBytes [] 0 p, load_of_fits rfl hp, Memory.writeBytes_wf Memory.nil_wf 0 p,
    Memory.writeBytes_below (Memory.nil_below _) (by rwa [Nat.zero_add]), fun k hk => ?program, fun k hk => ?padding⟩
  case program => rw [Memory.read_writeBytes_nil, if_pos hk, List.getD_eq_getElem _ _ hk]
  case padding => rw [Memory.read_writeBytes_nil, if_neg (Nat.not_lt.mpr hk)]

/-- Settles O52: of all that `load` can do, only one is left. -/
theorem tooLargeIsRefused : Obligations.TooLargeIsRefused := by
  intro s p hs hp
  rcases load_cases s p with ⟨hstarted, -⟩ | ⟨-, -, h⟩ | ⟨-, hfits, -⟩
  · exact absurd (hs.symm.trans hstarted) (by decide)
  · exact ⟨h, rfl⟩
  · omega

/-- Settles O53: neither `load` nor `start` is refused before `start`. -/
theorem launchGivesInit : Obligations.LaunchGivesInit := fun _ _ hp =>
  ⟨_, load_of_fits rfl hp, start_of_not_started rfl⟩

/-- Settles O54: past the program memory already reads zero, and canonical memory does not list a zero. -/
theorem trailingZerosChangeNothing : Obligations.TrailingZerosChangeNothing := by
  intro cfg p k
  have hpadding : ∀ c, 0 + p.length ≤ c → (Memory.writeBytes [] 0 p).read c = 0 := fun c hc => by
    rw [Memory.read_writeBytes_nil, if_neg (by omega)]
  rw [State.init, Memory.writeBytes_append,
    Memory.writeBytes_zeros (Memory.writeBytes_wf Memory.nil_wf 0 p) hpadding, State.init]

end Sys2Proof.Machine

/-! PROOFS. The statements about runs (R18, R36, R142, R164, R168 to R170). -/

namespace Sys2Proof.Machine

/-! ### Runs composed -/

/-- A run from a state that steps to itself stays there. -/
theorem run_of_fixed {s : State} (h : step s = .next s) (n : Nat) : run n s = .next s := by
  induction n with
  | zero => rfl
  | succ n ih => rw [run_succ_of_step h, ih]

/-- A run goes on from where an earlier one stopped. -/
theorem run_add {n : Nat} {s t : State} (h : run n s = .next t) (k : Nat) : run (n + k) s = run k t := by
  induction n generalizing s with
  | zero =>
    obtain rfl := Host.Outcome.next.inj h
    rw [Nat.zero_add]
  | succ n ih =>
    obtain ⟨u, hu, hrun⟩ := run_succ_cases h
    rw [Nat.succ_add, run_succ_of_step hu, ih hrun]

/-- A terminal state is the end of every run from it (R18). -/
theorem run_of_terminal {s : State} (h : s.Terminal) (n : Nat) : run n s = .next s :=
  run_of_fixed (step_of_idle fun he => h he.2) n

/-- Settles O15: a terminal core is idle, and `reset` answers the reset state whatever it is given. -/
theorem terminalIsFinal : Obligations.TerminalIsFinal :=
  ⟨fun _ n h => run_of_terminal h n, fun _ => ⟨rfl, rfl, rfl⟩⟩

/-- Settles O16: a core that was not started is idle. -/
theorem noStepBeforeStart : Obligations.NoStepBeforeStart := fun s n h =>
  run_of_fixed (step_of_idle fun he => absurd (h.symm.trans he.1) (by decide)) n

/-- Settles O57: the jump lies below `C_INST`, so its target is valid and `ip` is set to itself. -/
theorem selfLoopRunsForever : Obligations.SelfLoopRunsForever := by
  intro s rest he hdec n
  have hip : s.ip ≤ s.cfg.cInst := by
    have := State.fetch_fits hdec
    omega
  have hjump : exec (.jmp s.ip) s = .next s := (jmpEffect s s.ip).1 hip
  exact run_of_fixed ((step_of_instr he hdec).trans hjump) n

/-! ### The end of a run (R168, R170) -/

/-- A run that goes on past an end stays at it (R168). -/
theorem eq_of_run_past_end {s t u : State} {n k : Nat} (ht : run n s = .next t) (hterminal : t.Terminal)
    (hu : run (n + k) s = .next u) : t = u := by
  rw [run_add ht, run_of_terminal hterminal] at hu
  exact Host.Outcome.next.inj hu

/-- Settles O58: the longer of the two runs goes past the end of the shorter one. -/
theorem runEndIsUnique : Obligations.RunEndIsUnique := by
  rintro s t u ⟨n, ht, hterminal⟩ ⟨m, hu, hterminal'⟩
  rcases Nat.le_total n m with hle | hle
  · obtain ⟨k, rfl⟩ := Nat.exists_eq_add_of_le hle
    exact eq_of_run_past_end ht hterminal hu
  · obtain ⟨k, rfl⟩ := Nat.exists_eq_add_of_le hle
    exact (eq_of_run_past_end hu hterminal' ht).symm

/-- One step does not change where a run ends. -/
theorem endsIn_step_iff {s t : State} (h : step s = .next t) (e : State) : EndsIn s e ↔ EndsIn t e := by
  constructor
  · rintro ⟨n, hrun, hterminal⟩
    cases n with
    | zero =>
      obtain rfl := Host.Outcome.next.inj hrun
      obtain rfl := Host.Outcome.next.inj ((run_of_terminal hterminal 1).symm.trans (run_succ_of_step h))
      exact ⟨0, rfl, hterminal⟩
    | succ n => exact ⟨n, (run_succ_of_step h).symm.trans hrun, hterminal⟩
  · rintro ⟨n, hrun, hterminal⟩
    exact ⟨n + 1, (run_succ_of_step h).trans hrun, hterminal⟩

theorem outWithin_of_step {s t : State} (h : step s = .next t) : OutWithin s t := by
  intro n u hrun
  cases n with
  | zero =>
    obtain rfl := Host.Outcome.next.inj hrun
    exact ⟨0, t, rfl, step_out_prefix h⟩
  | succ n => exact ⟨n, u, (run_succ_of_step h).symm.trans hrun, List.prefix_refl _⟩

theorem outWithin_step_of {s t : State} (h : step s = .next t) : OutWithin t s := fun n u hrun =>
  ⟨n + 1, u, (run_succ_of_step h).trans hrun, List.prefix_refl _⟩

/-- Settles O59: a run from `s` is its first step and a run from `t`. -/
theorem stepKeepsObservation : Obligations.StepKeepsObservation := fun _ _ h =>
  ⟨fun _ => exists_congr fun u => and_congr_left fun _ => endsIn_step_iff h u, outWithin_of_step h,
    outWithin_step_of h⟩

/-! ### Running off the end, and straight-line execution (R36, R169) -/

/-- NOP is the table's first row, so its byte selects it under every assignment. -/
theorem lookup_nop (om : OpMap) : om.lookup om.nop = some .nop := by
  simp [OpMap.lookup, Mnemonic.all, OpMap.byte]

/-- Under an assignment whose zero byte is NOP, a step on a zero byte advances by one. -/
theorem step_of_zero_byte {s : State} (he : s.Executing) (hnop : s.cfg.opmap.nop = 0) (hlt : s.ip < s.cfg.cInst)
    (hbyte : s.imem.read s.ip = 0) : step s = .next { s with ip := s.ip + 1 } := by
  have hop : s.cfg.opmap.lookup (s.imem.read s.ip) = some .nop := by rw [hbyte, ← hnop, lookup_nop]
  obtain ⟨rest, hdec⟩ := decode_fetchWindow_fits hop hlt
  exact (step_of_instr he hdec).trans (nopEffect s)

/-- Settles O55, by induction on the bytes left below `C_INST`: each is a NOP, and after the last one the
fetch faults. -/
theorem runsOffTheEnd : Obligations.RunsOffTheEnd := by
  intro s he hnop hip hzero
  generalize hn : s.cfg.cInst - s.ip = n
  induction n generalizing s with
  | zero =>
    have hend : s.ip = s.cfg.cInst := by omega
    rw [run_succ_of_step (truncatedOpcodeFetch s he hend.ge), hend]
    rfl
  | succ n ih =>
    have hlt : s.ip < s.cfg.cInst := by omega
    rw [run_succ_of_step (step_of_zero_byte he hnop hlt (hzero s.ip (Nat.le_refl _) hlt))]
    exact ih { s with ip := s.ip + 1 } he hnop hlt (fun a ha => hzero a (Nat.le_of_succ_le ha))
      (show s.cfg.cInst - (s.ip + 1) = n by omega)

/-- The core stands at a jump: the decoder reads one at `ip`. -/
def State.AtJump (s : State) : Prop :=
  ∃ a rest, decode s.cfg.opmap s.fetchWindow = .instr (.jmp a) rest ∨
    decode s.cfg.opmap s.fetchWindow = .instr (.jz a) rest ∨ decode s.cfg.opmap s.fetchWindow = .instr (.jnz a) rest

/-- Any instruction but a jump moves `ip` past itself (R60). -/
theorem effect_ip_of_not_atJump {s : State} {i : Instr} {rest : List Byte}
    (hdec : decode s.cfg.opmap s.fetchWindow = .instr i rest) (hjump : ¬ s.AtJump) :
    (effect i s).ip = s.ip + i.mnemonic.length := by
  cases i with
  | jmp a => exact absurd ⟨a, rest, .inl hdec⟩ hjump
  | jz a => exact absurd ⟨a, rest, .inr (.inl hdec)⟩ hjump
  | jnz a => exact absurd ⟨a, rest, .inr (.inr hdec)⟩ hjump
  | _ => rfl

/-- Settles O56, by induction on the bytes left below `C_INST`: each step that is no jump and does not end the run takes
at least one of them. -/
theorem straightLineEnds : Obligations.StraightLineEnds := by
  intro s he
  generalize hn : s.cfg.cInst - s.ip = n
  induction n using Nat.strong_induction_on generalizing s with
  | h n ih =>
    by_cases hjump : s.AtJump
    · exact ⟨0, s, Nat.zero_le _, rfl, .inr hjump⟩
    · obtain ⟨t, ht⟩ := step_answers s
      by_cases hterminal : t.Terminal
      · exact ⟨1, t, Nat.le_add_left 1 n, run_succ_of_step ht, .inl hterminal⟩
      · rcases step_settles he ht with ⟨-, rfl⟩ | ⟨-, i, rest, hdec, rfl⟩
        · exact absurd (by simp) hterminal
        · have hip := effect_ip_of_not_atJump hdec hjump
          have hfit := State.fetch_fits hdec
          have hcfg := effect_cfg i s
          have hlen : 1 ≤ i.mnemonic.length := Nat.le_add_right ..
          have hleft : (effect i s).cfg.cInst - (effect i s).ip < n := by
            rw [hcfg, hip]
            omega
          have he' : (effect i s).Executing := ⟨(effect_started i s).trans he.1, not_not.mp hterminal⟩
          obtain ⟨k, u, hk, hrun, hend⟩ := ih _ hleft _ he' rfl
          exact ⟨k + 1, u, by omega, (run_succ_of_step ht).trans hrun, hend⟩

end Sys2Proof.Machine

/-! PROOFS. The text of a value (10_state.md R20): what `decimalDigits` writes. -/

namespace Sys2Proof.Machine

/-- The number decimal digits read as, most significant first (R20). -/
def readDecimal (ds : List Byte) : Nat := ds.foldl (fun acc d => acc * 10 + (d.toNat - 0x30)) 0

theorem readDecimal_append_singleton (ds : List Byte) (d : Byte) :
    readDecimal (ds ++ [d]) = readDecimal ds * 10 + (d.toNat - 0x30) := by
  simp [readDecimal]

/-- The byte of a decimal digit (R20). -/
theorem toNat_digit {n : Nat} (hn : n < 10) : (BitVec.ofNat 8 (48 + n)).toNat = 48 + n := by
  rw [BitVec.toNat_ofNat]
  omega

theorem decimalDigits_of_lt {n : Nat} (hn : n < 10) (fuel : Nat) :
    decimalDigits (fuel + 1) n = [BitVec.ofNat 8 (48 + n)] := if_pos hn

theorem decimalDigits_of_ge {n : Nat} (hn : 10 ≤ n) (fuel : Nat) :
    decimalDigits (fuel + 1) n = decimalDigits fuel (n / 10) ++ [BitVec.ofNat 8 (48 + n % 10)] :=
  if_neg (Nat.not_lt.mpr hn)

/-- Every byte written is a decimal digit. -/
theorem decimalDigits_mem {fuel n : Nat} {d : Byte} (hd : d ∈ decimalDigits fuel n) :
    0x30 ≤ d.toNat ∧ d.toNat ≤ 0x39 := by
  induction fuel generalizing n with
  | zero => exact absurd hd List.not_mem_nil
  | succ fuel ih =>
    rcases Nat.lt_or_ge n 10 with hn | hn
    · rw [decimalDigits_of_lt hn, List.mem_singleton] at hd
      rw [hd, toNat_digit hn]
      omega
    · rw [decimalDigits_of_ge hn, List.mem_append, List.mem_singleton] at hd
      rcases hd with hd | rfl
      · exact ih hd
      · rw [toNat_digit (Nat.mod_lt n (by decide))]
        omega

/-- The digits read back as the number, where the fuel covers it. -/
theorem readDecimal_decimalDigits {fuel n : Nat} (hn : n < 10 ^ fuel) : readDecimal (decimalDigits fuel n) = n := by
  induction fuel generalizing n with
  | zero => exact (Nat.lt_one_iff.mp hn).symm
  | succ fuel ih =>
    rcases Nat.lt_or_ge n 10 with hlt | hge
    · have hdigit := toNat_digit hlt
      rw [decimalDigits_of_lt hlt, ← List.nil_append [_], readDecimal_append_singleton, hdigit, readDecimal]
      simp
    · have hdigit := toNat_digit (Nat.mod_lt n (show 0 < 10 by decide))
      have hquot : n / 10 < 10 ^ fuel := by rw [pow_succ] at hn; omega
      rw [decimalDigits_of_ge hge, readDecimal_append_singleton, ih hquot, hdigit]
      omega

theorem decimalDigits_ne_nil (fuel n : Nat) : decimalDigits (fuel + 1) n ≠ [] := by
  rcases Nat.lt_or_ge n 10 with hn | hn
  · simp [decimalDigits_of_lt hn]
  · simp [decimalDigits_of_ge hn]

/-- A positive number is written with no leading zero, where the fuel covers it. -/
theorem decimalDigits_head?_ne {fuel n : Nat} (hpos : 0 < n) (hn : n < 10 ^ fuel) :
    (decimalDigits fuel n).head? ≠ some 0x30 := by
  induction fuel generalizing n with
  | zero => simp [decimalDigits]
  | succ fuel ih =>
    rcases Nat.lt_or_ge n 10 with hlt | hge
    · intro hhead
      rw [decimalDigits_of_lt hlt, List.head?_cons, Option.some_inj] at hhead
      have hbyte : 48 + n = 48 := (toNat_digit hlt).symm.trans (congrArg BitVec.toNat hhead)
      omega
    · have hquot : n / 10 < 10 ^ fuel := by rw [pow_succ] at hn; omega
      have hne := ih (by omega) hquot
      cases fuel with
      | zero =>
        rw [pow_zero] at hquot
        omega
      | succ fuel => rwa [decimalDigits_of_ge hge, List.head?_append_of_ne_nil _ (decimalDigits_ne_nil _ _)]

/-- The magnitude of a word has at most ten digits. -/
theorem natAbs_toInt_lt (v : Word) : v.toInt.natAbs < 10 ^ 10 := by
  have hlo := v.le_toInt
  have hhi := v.toInt_lt
  omega

/-- Settles O60: the digits `renderWord` writes between sign and line feed. -/
theorem renderIsDecimal : Obligations.RenderIsDecimal := by
  intro v
  refine ⟨decimalDigits 10 v.toInt.natAbs, rfl, fun _ => decimalDigits_mem,
    readDecimal_decimalDigits (natAbs_toInt_lt v), decimalDigits_ne_nil _ _, fun hhead => ?_⟩
  rcases Nat.eq_zero_or_pos v.toInt.natAbs with hzero | hpos
  · rw [hzero]
    rfl
  · exact absurd hhead (decimalDigits_head?_ne hpos (natAbs_toInt_lt v))

end Sys2Proof.Machine
